-- ==== Sys2Proof/Word.lean ====
section
/-!
DEFINITION. The word types of ACG-FDMV (00_scope.md R7, 30_encoding.md R82, R83). Every quantity is unsigned.
-/

namespace Sys2Proof

/-- A `Byte`: an unsigned integer 0..255 (R7). -/
abbrev Byte := BitVec 8

/-- A `U16`: an unsigned integer 0..65535 (R7). -/
abbrev U16 := BitVec 16

/-- A 10-bit operation word, operation in bits 9:8 and operand in bits 7:0 (R82, R83). -/
abbrev OpWord := BitVec 10

end Sys2Proof
end

