-- ==== Sys2Proof/Config.lean ====
section
/-!
DEFINITION. The configuration record of 00_scope.md R6: the document's constants under their names, with the
document's values as defaults (93_implementation_defined.md U1), and the open parameters N and K (U17).
A `Config` stands in State and no step writes it, so a statement about every state is a statement about every
configuration.
-/

namespace Sys2Proof

/-- The constants and parameters of R6. That they stand in State is a DESIGN CHOICE (log entry 1); the literals are
UNVERIFIED (log entry 3). -/
structure Config where
  /-- `HEAD`, the head marker (R71). -/
  head : Byte := 0xFD
  /-- `END`, the end marker (R71). -/
  endMark : Byte := 0xED
  /-- `HEADER_LEN`: bytes collected in HEADER. Structural (U1): every legal configuration has 3. -/
  headerLen : Nat := 3
  /-- `LEN_BITS`: width of the length field. Structural (U1): every legal configuration has 16. -/
  lenBits : Nat := 16
  /-- `TRAILER_LEN`: bytes collected in TRAILER; `FD.tcnt` and `FD.trl` follow it (U1). -/
  trailerLen : Nat := 4
  /-- `CMD_KEYPOINT_BOX_DETECTION` (R72). -/
  cmdKeypoint : Byte := 0
  /-- `CMD_CLASSIFICATION` (R72). -/
  cmdClassification : Byte := 1
  /-- `CMD_DETECTION` (R72). -/
  cmdDetection : Byte := 2
  /-- `SENTINEL`: the id that means "no detection" (R136). -/
  sentinel : Byte := 255
  /-- `CLS_FIRST`: offset of the first classification stride. -/
  clsFirst : Nat := 1
  /-- `CLS_STRIDE`: bytes per classification stride. -/
  clsStride : Nat := 2
  /-- `DET_FIRST`: offset of the first detection stride. -/
  detFirst : Nat := 1
  /-- `DET_STRIDE`: bytes per detection stride. -/
  detStride : Nat := 6
  /-- `DET_CONF_OFF`: offset of the confidence inside a detection stride. -/
  detConfOff : Nat := 5
  /-- `PAYLOAD_CAP`: bytes the payload buffer holds, the largest value of a length. Fixed: every legal configuration has
  65535. -/
  payloadCap : Nat := 65535
  /-- `WINDOW_CAP`, written N: OPEN in the spec. -/
  windowCap : Nat
  /-- `NUM_IDS`, written K: OPEN in the spec. -/
  numIds : Nat
  deriving DecidableEq, Repr

/-- The bytes of a frame that are not payload: HEAD, the header, the trailer and END (R70, R74). -/
abbrev Config.frameOverhead (c : Config) : Nat := 1 + c.headerLen + c.trailerLen + 1

/-- The values the block may be built with: the domains of N and K (R6, U14), `SENTINEL` ≥ K and `TRAILER_LEN` ≥ 1 (U1),
the structural constants and the fixed buffer size at their values (U1, R6), and, DEDUCED (log entry 22), three different
command numbers and strides that move forward. -/
abbrev Config.Legal (c : Config) : Prop :=
  (1 ≤ c.windowCap ∧ c.windowCap ≤ 65535) ∧
  (1 ≤ c.numIds ∧ c.numIds ≤ 255 ∧ c.numIds ≤ c.sentinel.toNat) ∧
  (c.cmdKeypoint ≠ c.cmdClassification ∧ c.cmdKeypoint ≠ c.cmdDetection ∧ c.cmdClassification ≠ c.cmdDetection) ∧
  (1 ≤ c.clsStride ∧ 1 ≤ c.detStride) ∧
  (c.headerLen = 3 ∧ c.lenBits = 16 ∧ c.payloadCap = 2 ^ c.lenBits - 1 ∧ 1 ≤ c.trailerLen)

/-- The document's constants with N = 20 and K = 3, its example values (R6, 95_test_vectors.md).
DESIGN CHOICE (log entry 2): the spec leaves N and K open. -/
def Config.document : Config := { windowCap := 20, numIds := 3 }

/-- A free value (log entry 17): what a port-level output shows while the spec gives it no meaning
(93_implementation_defined.md U12). The first argument counts clock edges, the second names the output. -/
opaque Config.freeByte : Nat → Nat → Byte

end Sys2Proof
end

