-- ==== Sys2Proof/Syntax.lean ====
section
/-!
DEFINITION. The value types at the interface (00_scope.md R9), the operations as an instruction type with one
constructor per row of opcode_table.json, and the forms in which the environment presents an operation.
-/

namespace Sys2Proof

/-- A frame (R9). `trailer` is `TRAILER_LEN` raw bytes in arrival order, never combined into a number (R54, R75);
`terminator` is END in an emitted frame. -/
structure Frame where
  command    : Byte
  length     : U16
  payload    : List Byte
  trailer    : List Byte
  terminator : Byte
  deriving DecidableEq, Repr

/-- The kind of a candidate (R135). -/
inductive Kind where
  | classification
  | detection
  deriving DecidableEq, Repr

/-- One (id, confidence) observation (R9). -/
structure Candidate where
  id         : Byte
  confidence : Byte
  kind       : Kind
  deriving DecidableEq, Repr

/-- The result of the vote (R9). -/
inductive Resolution where
  | noSignal
  | signal (id : Byte)
  deriving DecidableEq, Repr

/-- The position in the frame that the next fed byte is taken as (R32), the `state` key of the table's BYTE rows. -/
inductive ByteSlot where
  | waitStart
  | command
  | lenLo
  | lenHi
  | payload
  | trailer
  | terminator
  deriving DecidableEq, Repr

/-- One constructor per row of opcode_table.json (R88). -/
inductive Instr where
  /-- FDOP `fd_nop`, R110. -/
  | fdNop
  /-- FDOP `feed`, R100. -/
  | feed (b : Byte)
  /-- FDOP `reset`, R109. -/
  | reset
  /-- FDOP `fd_reserved`, R82. -/
  | fdReserved
  /-- MVOP `mv_nop`, R160. -/
  | mvNop
  /-- MVOP `sample`, R154. -/
  | sample (id : Byte)
  /-- MVOP `evaluate`, R158. -/
  | evaluate
  /-- MVOP `clear`, R159. -/
  | clear
  /-- BYTE `feed.wait_start.head`, R101: the operand is HEAD. -/
  | feedWaitStartHead
  /-- BYTE `feed.wait_start.other`, R101. -/
  | feedWaitStartOther (b : Byte)
  /-- BYTE `feed.header.cmd`, R102. -/
  | feedHeaderCmd (b : Byte)
  /-- BYTE `feed.header.len_lo`, R103. -/
  | feedHeaderLenLo (b : Byte)
  /-- BYTE `feed.header.len_hi`, R104. -/
  | feedHeaderLenHi (b : Byte)
  /-- BYTE `feed.payload`, R105. -/
  | feedPayload (b : Byte)
  /-- BYTE `feed.trailer`, R106. -/
  | feedTrailer (b : Byte)
  /-- BYTE `feed.terminator.end`, R107: the operand is END. -/
  | feedTerminatorEnd
  /-- BYTE `feed.terminator.other`, R108. -/
  | feedTerminatorOther (b : Byte)
  /-- FRAME `extract.keypoint_box_detection`, R133. -/
  | extractKeypoint (f : Frame)
  /-- FRAME `extract.classification`, R131. -/
  | extractClassification (f : Frame)
  /-- FRAME `extract.detection`, R132. -/
  | extractDetection (f : Frame)
  /-- FRAME `extract.reserved`, R134. -/
  | extractReserved (f : Frame)
  deriving DecidableEq, Repr

/-- How the environment presents one operation: a word on the FD port or on the MV port (R82, R83), a byte read
through the table's BYTE rows, a wire frame read through the table's FRAME rows, or the trace line `extract`,
which applies to the frame returned by the nearest preceding feed (R86). -/
inductive Issue where
  | fdWord (w : OpWord)
  | mvWord (w : OpWord)
  | byte (b : Byte)
  | frameBytes (bs : List Byte)
  | extractReturned
  deriving DecidableEq, Repr

/-- One stimulus of the environment: an operation; one clock edge of the port binding with both operation words
(R85); the hardware reset (R210). -/
inductive Stimulus where
  | op (i : Issue)
  | edge (rst : Bool) (fdOp mvOp : OpWord)
  | hardwareReset
  deriving DecidableEq, Repr

end Sys2Proof
end

