-- ==== Sys2Proof/WellFormed.lean ====
section
/-!
DEFINITION. Which instructions are well formed: an operand that the row's match excludes, or a frame that the decoder
could not have emitted, is not.
-/

namespace Sys2Proof

/-- A frame as the decoder emits it: |payload| = length, |trailer| = TRAILER_LEN and the terminator is END (R9, R30(e),
R139). -/
abbrev Frame.WellFormed (c : Config) (f : Frame) : Prop :=
  f.payload.length = f.length.toNat ∧ f.trailer.length = c.trailerLen ∧ f.terminator = c.endMark

/-- A command that is none of the three the document enumerates (R72, R79): 3..255 with the document's numbers. -/
abbrev Config.Reserved (c : Config) (cmd : Byte) : Prop :=
  cmd ≠ c.cmdKeypoint ∧ cmd ≠ c.cmdClassification ∧ cmd ≠ c.cmdDetection

/-- The operands each row admits (R88: a priority 0 row applies when no row of higher priority matches). -/
def Instr.check (c : Config) : Instr → Bool
  | .feedWaitStartOther b => decide (b ≠ c.head)
  | .feedTerminatorOther b => decide (b ≠ c.endMark)
  | .extractKeypoint f => decide (f.WellFormed c ∧ f.command = c.cmdKeypoint)
  | .extractClassification f => decide (f.WellFormed c ∧ f.command = c.cmdClassification)
  | .extractDetection f => decide (f.WellFormed c ∧ f.command = c.cmdDetection)
  | .extractReserved f => decide (f.WellFormed c ∧ c.Reserved f.command)
  | .fdNop | .feed _ | .reset | .fdReserved | .mvNop | .sample _ | .evaluate | .clear => true
  | .feedWaitStartHead | .feedHeaderCmd _ | .feedHeaderLenLo _ | .feedHeaderLenHi _ => true
  | .feedPayload _ | .feedTrailer _ | .feedTerminatorEnd => true

/-- A well-formed instruction of the configuration `c`. -/
abbrev Instr.WellFormed (c : Config) (i : Instr) : Prop := i.check c = true

end Sys2Proof
end

