-- ==== Sys2Proof/Decode.lean ====
section
/-!
DEFINITION. Decoding what the environment presents into an instruction, total and refusing by name, and the encoder:
operation words (30_encoding.md R82, R83), the BYTE rows by position (R88, R100), the wire frame (R70 to R75, R80) and
the FRAME rows by command (R72, R88); the pseudo-operations of R87. The bit-field and byte-order helpers stand here.
-/

namespace Sys2Proof

/-! ## Bit fields and byte order -/

/-- The operation field, bits 9:8 of an operation word. -/
def OpWord.op (w : OpWord) : BitVec 2 := w.extractLsb' 8 2

/-- The operand field, bits 7:0 of an operation word. -/
def OpWord.operand (w : OpWord) : Byte := w.extractLsb' 0 8

/-- The word `{op, operand}` (R82, R83). -/
def OpWord.make (op : BitVec 2) (operand : Byte) : OpWord := op ++ operand

/-- `{hi, lo}`: the 16-bit number whose low byte arrives first on the wire (R53, R73). -/
def U16.make (hi lo : Byte) : U16 := hi ++ lo

/-- Bits 7:0. -/
def U16.lowByte (v : U16) : Byte := v.extractLsb' 0 8

/-- Bits 15:8. -/
def U16.highByte (v : U16) : Byte := v.extractLsb' 8 8

/-! ## Decoding -/

/-- Why an issue stands for no instruction. -/
inductive DecodeError where
  /-- A wire frame ends before its LEN, trailer or END says it may, or goes on after END (R74). -/
  | badLength
  /-- The first byte of a wire frame is not HEAD (R70). -/
  | badHead
  /-- The byte at the END position of a wire frame is not END (R70). -/
  | badTerminator
  /-- The trace line `extract` where the nearest preceding `feed` returned no frame (R86). -/
  | noFrameReturned
  deriving DecidableEq, Repr

/-- The FD operation port (R82). -/
def decodeFdWord (w : OpWord) : Instr :=
  match OpWord.op w with
  | 0#2 => .fdNop
  | 1#2 => .feed (OpWord.operand w)
  | 2#2 => .reset
  | _   => .fdReserved

/-- The MV operation port (R83). -/
def decodeMvWord (w : OpWord) : Instr :=
  match OpWord.op w with
  | 0#2 => .mvNop
  | 1#2 => .sample (OpWord.operand w)
  | 2#2 => .evaluate
  | _   => .clear

/-- The BYTE rows: at each position the row of higher priority that matches, else the row that takes every byte (R88). -/
def decodeByte (c : Config) (slot : ByteSlot) (b : Byte) : Instr :=
  match slot with
  | .waitStart  => if b = c.head then .feedWaitStartHead else .feedWaitStartOther b
  | .command    => .feedHeaderCmd b
  | .lenLo      => .feedHeaderLenLo b
  | .lenHi      => .feedHeaderLenHi b
  | .payload    => .feedPayload b
  | .trailer    => .feedTrailer b
  | .terminator => if b = c.endMark then .feedTerminatorEnd else .feedTerminatorOther b

/-- The FRAME rows, selected by the frame's command (R130, R88). -/
def decodeFrame (c : Config) (f : Frame) : Instr :=
  if f.command = c.cmdClassification then .extractClassification f
  else if f.command = c.cmdDetection then .extractDetection f
  else if f.command = c.cmdKeypoint then .extractKeypoint f
  else .extractReserved f

/-- What follows the payload on the wire: the trailer bytes and END, nothing more (R70). -/
def frameTail (c : Config) (cmd : Byte) (len : U16) (payload tail : List Byte) : Except DecodeError Frame :=
  match tail.drop c.trailerLen with
  | [e] => if e = c.endMark then .ok ⟨cmd, len, payload, tail.take c.trailerLen, e⟩ else .error .badTerminator
  | _ => .error .badLength

/-- A wire frame read as a whole: `HEAD CMD LEN_LO LEN_HI PAYLOAD TRAILER END` (R70). No byte value inside it is
special (R80). -/
def parseFrame (c : Config) : List Byte → Except DecodeError Frame
  | h :: cmd :: lo :: hi :: rest =>
    if h = c.head then
      if (U16.make hi lo).toNat ≤ rest.length then
        frameTail c cmd (U16.make hi lo) (rest.take (U16.make hi lo).toNat) (rest.drop (U16.make hi lo).toNat)
      else .error .badLength
    else .error .badHead
  | _ => .error .badLength

/-- Every issue, in the configuration, at the decoder's position, with the frame that the nearest preceding `feed`
returned (R86), stands for one instruction or is refused by name. -/
def decode (c : Config) (slot : ByteSlot) (returned : Option Frame) : Issue → Except DecodeError Instr
  | .fdWord w => .ok (decodeFdWord w)
  | .mvWord w => .ok (decodeMvWord w)
  | .byte b => .ok (decodeByte c slot b)
  | .frameBytes bs =>
    match parseFrame c bs with
    | .ok f => .ok (decodeFrame c f)
    | .error e => .error e
  | .extractReturned =>
    match returned with
    | some f => .ok (decodeFrame c f)
    | none => .error .noFrameReturned

/-! ## Encoding -/

/-- The bytes of a frame on the wire (R70, R53). -/
def Frame.wire (c : Config) (f : Frame) : List Byte :=
  [c.head, f.command, U16.lowByte f.length, U16.highByte f.length] ++ f.payload ++ f.trailer ++ [f.terminator]

/-- The issue that stands for an instruction; unused operand bits are written as 0 (R86). -/
def encode (c : Config) : Instr → Issue
  | .fdNop => .fdWord (OpWord.make 0 0)
  | .feed b => .fdWord (OpWord.make 1 b)
  | .reset => .fdWord (OpWord.make 2 0)
  | .fdReserved => .fdWord (OpWord.make 3 0)
  | .mvNop => .mvWord (OpWord.make 0 0)
  | .sample id => .mvWord (OpWord.make 1 id)
  | .evaluate => .mvWord (OpWord.make 2 0)
  | .clear => .mvWord (OpWord.make 3 0)
  | .feedWaitStartHead => .byte c.head
  | .feedWaitStartOther b => .byte b
  | .feedHeaderCmd b => .byte b
  | .feedHeaderLenLo b => .byte b
  | .feedHeaderLenHi b => .byte b
  | .feedPayload b => .byte b
  | .feedTrailer b => .byte b
  | .feedTerminatorEnd => .byte c.endMark
  | .feedTerminatorOther b => .byte b
  | .extractKeypoint f => .frameBytes (f.wire c)
  | .extractClassification f => .frameBytes (f.wire c)
  | .extractDetection f => .frameBytes (f.wire c)
  | .extractReserved f => .frameBytes (f.wire c)

/-- The position a BYTE row belongs to (its `state` key in the table); the other rows have none. -/
def Instr.slot? : Instr → Option ByteSlot
  | .feedWaitStartHead | .feedWaitStartOther _ => some .waitStart
  | .feedHeaderCmd _ => some .command
  | .feedHeaderLenLo _ => some .lenLo
  | .feedHeaderLenHi _ => some .lenHi
  | .feedPayload _ => some .payload
  | .feedTrailer _ => some .trailer
  | .feedTerminatorEnd | .feedTerminatorOther _ => some .terminator
  | .fdNop | .feed _ | .reset | .fdReserved | .mvNop | .sample _ | .evaluate | .clear => none
  | .extractKeypoint _ | .extractClassification _ | .extractDetection _ | .extractReserved _ => none

/-! ## Pseudo-operations (R87) -/

/-- `feedn b0 b1 ... bn`. -/
def Trace.feedn (bs : List Byte) : List Stimulus := bs.map fun b => .op (.fdWord (OpWord.make 1 b))

/-- `frame CMD, [p0 ...], [t0 t1 t2 t3]`: the bytes of a well-formed frame, fed one by one (R112). -/
def Trace.frame (c : Config) (cmd : Byte) (payload trailer : List Byte) : List Stimulus :=
  Trace.feedn (Frame.wire c ⟨cmd, BitVec.ofNat 16 payload.length, payload, trailer, c.endMark⟩)

/-- `window [s0 ... sn]`. -/
def Trace.window (ids : List Byte) : List Stimulus :=
  .op (.mvWord (OpWord.make 3 0)) :: ids.map fun i => .op (.mvWord (OpWord.make 1 i))

/-- `vote [s0 ... sn]`. -/
def Trace.vote (ids : List Byte) : List Stimulus := Trace.window ids ++ [.op (.mvWord (OpWord.make 2 0))]

/-! ## Words numbered as opcode_table.json numbers them -/

/-- The issue whose bits are `w`, where a row of the table has `nbits` bits in whole bytes. Eight bits are a BYTE row.
A longer word below 2^10 is read as an operation word of the FD port: the table gives the MVOP rows the same words
(log entry 10). Any other word holds HEAD in bits 15:8 and CMD in bits 7:0 of a wire frame whose LEN and trailer are 0
(R88, log entry 11). -/
def tableIssue (c : Config) (nbits w : Nat) : Issue :=
  if nbits ≤ 8 then .byte (BitVec.ofNat 8 w)
  else if w < 1024 then .fdWord (BitVec.ofNat 10 w)
  else .frameBytes ([U16.highByte (BitVec.ofNat 16 w), U16.lowByte (BitVec.ofNat 16 w), 0, 0] ++
    List.replicate c.trailerLen 0 ++ [c.endMark])

/-- The position a table word is read at: END belongs to the one exact row of TERMINATOR, any other byte to WAIT_START,
where a decoder starts. -/
def tableSlot (c : Config) (nbits w : Nat) : ByteSlot :=
  if nbits ≤ 8 ∧ BitVec.ofNat 8 w = c.endMark ∧ c.endMark ≠ c.head then .terminator else .waitStart

/-- What the decoder reads from a table word, in the document's configuration. -/
def decodeTableWord (nbits w : Nat) : Option Instr :=
  match decode .document (tableSlot .document nbits w) none (tableIssue .document nbits w) with
  | .ok i => some i
  | .error _ => none

end Sys2Proof
end

