-- ==== Sys2Proof/Machine/State.lean ====
section
/-!
DEFINITION. The state as plain data: the eight registers of `FD` and the four of `MV` (10_state.md R20), the pulses of
the port binding (30_encoding.md R85), and the environment's side of a run (00_scope.md R10, R11), with the reasons a
step can stop and the state after reset.
-/

namespace Sys2Proof.Machine

/-- Byte cells at addresses, addresses strictly rising, no cell listed that holds what an unlisted one reads as. -/
abbrev Memory := List Host.Cell

/-- Counts or indexes at an index, in the same canonical form. -/
abbrev Counters := List (Nat × Nat)

/-- What an unlisted cell reads as (log entry 5): 0. For the vote counters it is the spec's reset value (R42); for the
payload buffer and the window it is never observed (R52, R29). -/
def Memory.unlisted : Byte := 0

/-- What an unlisted counter reads as (log entry 5). -/
def Counters.unlisted : Nat := 0

/-- The canonical form of a cell list whose unlisted cells read as `d`. -/
def Cells.wf {α : Type} [DecidableEq α] (d : α) : List (Nat × α) → Bool
  | [] => true
  | (k, v) :: rest => decide (v ≠ d) && rest.all (fun x => decide (k < x.1)) && Cells.wf d rest

/-- The canonical form of a byte memory. -/
def Memory.wf (m : Memory) : Bool := Cells.wf Memory.unlisted m

/-- The canonical form of a counter file. -/
def Counters.wf (m : Counters) : Bool := Cells.wf Counters.unlisted m

/-- `FD.st`: the five named values; no other is representable (R21, U11). -/
inductive FdSt where
  | waitStart
  | header
  | payload
  | trailer
  | terminator
  deriving DecidableEq, Repr

/-- The Frame Decoder's registers (R21 to R28). A void register holds stale bits (R29, log entry 4). -/
structure Fd where
  st   : FdSt
  /-- 2 bits, range 0..2 (R22). -/
  hcnt : Fin 3
  cmd  : Byte
  len  : U16
  pcnt : U16
  /-- The payload buffer, addresses 0..65534 (R26). -/
  pay  : Memory
  /-- Range 0..TRAILER_LEN-1 (R27, log entry 20). -/
  tcnt : Nat
  /-- The trailer register, elements 0..TRAILER_LEN-1 (R28). -/
  trl  : Memory
  deriving DecidableEq, Repr

/-- The smoother's registers (R33 to R36); counts and indexes are integers (R7, D31, log entry 20). -/
structure Mv where
  wlen : Nat
  win  : Memory
  cnt  : Counters
  last : Counters
  deriving DecidableEq, Repr

/-- What the environment sees of a run: each operation with its result (R11). The no-operations leave none (R110, R160). -/
inductive Event where
  | feed (result : Option Frame)
  | reset
  | extract (result : List Candidate)
  | sample (result : Option Resolution)
  | evaluate (result : Resolution)
  | clear
  | hardwareReset
  deriving DecidableEq, Repr

/-- The pulses of the port binding (R84, R85): `frame_valid`; `res_valid` with the resolution shown; and the count of
clock edges that the free port values are applied to (log entry 17). -/
structure Port where
  frameValid : Bool
  res        : Option Resolution
  edges      : Nat
  deriving DecidableEq, Repr

/-- The machine. `cfg` is written by no step (log entry 1). `pending` is what the environment issues next, in issue
order (log entry 6); `events` is what it has been given back, newest first (log entry 7). -/
structure State where
  cfg     : Config
  fd      : Fd
  mv      : Mv
  port    : Port
  pending : List Stimulus
  events  : List Event
  deriving DecidableEq, Repr

/-- Why the machine faults: for no reason, since no operation of the block faults in any state (R180). -/
inductive Fault where
  deriving DecidableEq, Repr

/-- Why an instruction or a stimulus has no meaning. -/
inductive Refusal where
  /-- An instruction of the table that has no meaning yet. Safe. -/
  | notModelled (mnemonic : String)
  /-- Raised by the operation word `fd_op` = 3: reserved, a model refuses it (R82, U9). Safe. -/
  | reservedFdOp
  /-- Raised by a BYTE row executed directly where the table does not select it (R88, R100). Safe: a fed byte is always
  read through the row that is selected. -/
  | byteRowNotSelected
  /-- Raised by a FRAME row executed directly on a frame of another command (R88, R130). Safe: a frame is always read
  through the row its command selects. -/
  | frameRowNotSelected
  /-- Raised by an issue that stands for no instruction (Decode). Safe. -/
  | undecodable (e : DecodeError)
  /-- Raised by a step in a configuration outside its domains, which is no configuration of this block (R6, U14). Safe. -/
  | illegalConfiguration
  /-- Raised in a state that no run reaches and that has no rule (U11, log entry 13), by a byte whose index `FD.pcnt` or
  `FD.tcnt`, or a valid sample whose index `MV.wlen`, is outside its buffer (R26, R28, R34). Safe: R30 and R37 rule such
  states out, and U11 refuses them as start states. -/
  | unreachableState
  deriving DecidableEq, Repr

/-- `FD` after the hardware reset: WAIT_START (R42, R210). The other registers are void in the spec and hold 0 here
(log entry 4). -/
def Fd.reset : Fd :=
  { st := .waitStart, hcnt := 0, cmd := 0, len := 0, pcnt := 0, pay := [], tcnt := 0, trl := [] }

/-- `MV` after the hardware reset: an empty window and every count 0 (R42, R210). -/
def Mv.reset : Mv := { wlen := 0, win := [], cnt := [], last := [] }

/-- The machine right after the hardware reset, in a given configuration, with nothing issued yet. -/
def State.resetFor (c : Config) : State :=
  { cfg := c, fd := .reset, mv := .reset, port := ⟨false, none, 0⟩, pending := [], events := [] }

/-- The machine right after reset, in the document's configuration (log entry 2). -/
def State.reset : State := State.resetFor .document

end Sys2Proof.Machine
end

