-- ==== Sys2Proof/Machine/Ops.lean ====
section
/-!
DEFINITION. The named operations over memory and registers: cells in canonical form, the register writes shared by the
meanings, the three resets (70_reset_and_hazards.md R210 to R213) and the record of results (R11). The block takes no
exception and has no return from one (60_exceptions.md R180, R188), so neither has an operation here.
-/

namespace Sys2Proof.Machine

/-! ## Cells -/

/-- The cell at `a`; `d` where none is listed. -/
def Cells.read {α : Type} (d : α) (m : List (Nat × α)) (a : Nat) : α :=
  match m with
  | [] => d
  | (k, v) :: rest => if k = a then v else Cells.read d rest a

/-- List the cell `(a, v)`, in place of any other at `a`. -/
def Cells.put {α : Type} (a : Nat) (v : α) : List (Nat × α) → List (Nat × α)
  | [] => [(a, v)]
  | (k, w) :: rest =>
    if a < k then (a, v) :: (k, w) :: rest
    else if a = k then (a, v) :: rest
    else (k, w) :: Cells.put a v rest

/-- List no cell at `a`. -/
def Cells.drop {α : Type} (a : Nat) : List (Nat × α) → List (Nat × α)
  | [] => []
  | (k, w) :: rest => if a = k then Cells.drop a rest else (k, w) :: Cells.drop a rest

/-- Write a cell, keeping the canonical form. -/
def Cells.write {α : Type} [DecidableEq α] (d : α) (m : List (Nat × α)) (a : Nat) (v : α) : List (Nat × α) :=
  if v = d then Cells.drop a m else Cells.put a v m

/-- The byte at `a`. -/
def Memory.read (m : Memory) (a : Nat) : Byte := Cells.read Memory.unlisted m a

/-- Write the byte at `a`. -/
def Memory.write (m : Memory) (a : Nat) (v : Byte) : Memory := Cells.write Memory.unlisted m a v

/-- The `n` bytes from address 0 on, in rising order. -/
def Memory.firstBytes (m : Memory) (n : Nat) : List Byte := (List.range n).map (Memory.read m)

/-- The counter at `k`. -/
def Counters.read (m : Counters) (k : Nat) : Nat := Cells.read Counters.unlisted m k

/-- Write the counter at `k`. -/
def Counters.write (m : Counters) (k v : Nat) : Counters := Cells.write Counters.unlisted m k v

/-! ## Registers -/

/-- `FD.len[7:0] <- b`, the other bits unchanged (R24, R103). -/
def setLenLow (len : U16) (b : Byte) : U16 := U16.make (U16.highByte len) b

/-- `FD.len[15:8] <- b`, the other bits unchanged (R24, R104). -/
def setLenHigh (len : U16) (b : Byte) : U16 := U16.make b (U16.lowByte len)

/-- The state with other `FD` registers. -/
def State.setFd (s : State) (fd : Fd) : State := { s with fd := fd }

/-- The state with other `MV` registers. -/
def State.setMv (s : State) (mv : Mv) : State := { s with mv := mv }

/-- The state with other port pulses. -/
def State.setPort (s : State) (p : Port) : State := { s with port := p }

/-- The state with other operations still to issue. -/
def State.setPending (s : State) (q : List Stimulus) : State := { s with pending := q }

/-- Give the environment the result of an operation (R11). -/
def State.log (s : State) (e : Event) : State := { s with events := e :: s.events }

/-! ## Resets -/

/-- Back to WAIT_START, every other `FD` register void (R109, R107). -/
def Fd.toWaitStart (fd : Fd) : Fd := { fd with st := .waitStart }

/-- `MV.wlen` and every counter to 0, the window and the last-occurrence file void (R159). -/
def Mv.emptied (mv : Mv) : Mv := { mv with wlen := 0, cnt := [] }

/-- The hardware reset: `reset` on `FD` and `clear` on `MV` (R210); the port's pulses fall (R85). -/
def State.hardwareReset (s : State) : State :=
  (((s.setFd s.fd.toWaitStart).setMv s.mv.emptied).setPort { s.port with frameValid := false, res := none }).log .hardwareReset

end Sys2Proof.Machine
end

