-- ==== Sys2Proof/Machine/Operands.lean ====
section
/-!
DEFINITION. What an operation reads to know its operand: the decoder's position (10_state.md R32), the row a byte
selects (30_encoding.md R88), the frame a trace line `extract` applies to (R86), the valid ids (42_vote_smoother.md
R150).
-/

namespace Sys2Proof.Machine

/-- The position in the frame: `FD.st` with the live counter of that state (R32). -/
def Fd.slot (fd : Fd) : ByteSlot :=
  match fd.st with
  | .waitStart => .waitStart
  | .header =>
    match fd.hcnt with
    | 0 => .command
    | 1 => .lenLo
    | 2 => .lenHi
  | .payload => .payload
  | .trailer => .trailer
  | .terminator => .terminator

/-- The result of the nearest preceding `feed` (R86), from the results in reverse order. -/
def returnedFrame : List Event → Option Frame
  | .feed r :: _ => r
  | .reset :: es | .extract _ :: es | .sample _ :: es | .evaluate _ :: es | .clear :: es | .hardwareReset :: es =>
    returnedFrame es
  | [] => none

/-- Whether the last `FD` operation other than `fd_nop` emitted a frame: the interval in which the frame can be read in
place (R63, R85). -/
def frameInPlace : List Event → Bool
  | .feed r :: _ => r.isSome
  | .reset :: _ | .hardwareReset :: _ => false
  | .extract _ :: es | .sample _ :: es | .evaluate _ :: es | .clear :: es => frameInPlace es
  | [] => false

/-- The instruction an issue stands for in this state. -/
def decodeIn (s : State) (i : Issue) : Except DecodeError Instr :=
  decode s.cfg s.fd.slot (returnedFrame s.events) i

/-- `valid(id)`: 0 ≤ id < K (R150). -/
abbrev IdValid (c : Config) (id : Byte) : Prop := id.toNat < c.numIds

/-- Run a BYTE row where the table selects it, refuse it by name elsewhere (R88, log entry 8). -/
def whenSelected (selected : Prop) [Decidable selected] (o : Host.Outcome State Fault Refusal) :
    Host.Outcome State Fault Refusal :=
  if selected then o else .refused .byteRowNotSelected

end Sys2Proof.Machine
end

