-- ==== Sys2Proof/Machine/Flags.lean ====
section
/-!
DEFINITION. The status outputs (10_state.md R38): the block has no condition codes, and these are pure functions of the
state that no operation depends on. The numeric code of `FD.st` is R21's.
-/

namespace Sys2Proof.Machine

/-- The 3-bit encoding of `FD.st` (R21, D4). -/
def FdSt.code : FdSt → BitVec 3
  | .waitStart => 0
  | .header => 1
  | .payload => 2
  | .trailer => 3
  | .terminator => 4

/-- `fd_state` (R38). -/
def fdState (s : State) : BitVec 3 := s.fd.st.code

/-- `fd_busy` = 1 iff a frame is in progress (R38). -/
def fdBusy (s : State) : Bool := decide (s.fd.st ≠ .waitStart)

/-- `mv_len` (R38). -/
def mvLen (s : State) : Nat := s.mv.wlen

/-- `mv_empty` (R38). -/
def mvEmpty (s : State) : Bool := decide (s.mv.wlen = 0)

/-- `mv_full` (R38). -/
def mvFull (s : State) : Bool := decide (s.mv.wlen = s.cfg.windowCap)

end Sys2Proof.Machine
end

