-- ==== Sys2Proof/Machine/FrameDecoder.lean ====
section
/-!
DEFINITION. The Frame Decoder's operations (40_frame_decoder.md): one definition per rule R101 to R108 over the whole
state, `feed` choosing among them (R100), `reset` (R109), `fd_nop` (R110), the reserved word (R82), and the nine BYTE
rows, each the rule of its own position.
-/

namespace Sys2Proof.Machine

/-- End a `feed`: the registers it wrote and the result it returns (R111). -/
def State.fed (s : State) (fd : Fd) (r : Option Frame) : Host.Outcome State Fault Refusal :=
  .next ((s.setFd fd).log (.feed r))

/-- R101, a head marker: a new in-progress frame. -/
def takeHead (s : State) : Host.Outcome State Fault Refusal :=
  s.fed { s.fd with st := .header, hcnt := 0, pcnt := 0, tcnt := 0 } none

/-- R101, any other byte, and R108, a byte that is not END: no register changes. -/
def takeNothing (s : State) : Host.Outcome State Fault Refusal := s.fed s.fd none

/-- R102. -/
def takeCommand (b : Byte) (s : State) : Host.Outcome State Fault Refusal :=
  s.fed { s.fd with cmd := b, hcnt := 1 } none

/-- R103. -/
def takeLenLo (b : Byte) (s : State) : Host.Outcome State Fault Refusal :=
  s.fed { s.fd with len := setLenLow s.fd.len b, hcnt := 2 } none

/-- R104: a zero length passes PAYLOAD by. -/
def takeLenHi (b : Byte) (s : State) : Host.Outcome State Fault Refusal :=
  s.fed { s.fd with
    len := setLenHigh s.fd.len b
    st := if setLenHigh s.fd.len b = 0 then .trailer else .payload } none

/-- R105: the comparison uses the old `FD.pcnt`. The address is inside the buffer in every reachable state (R30(c)); a
state in which it is not is refused (U11). -/
def takePayload (b : Byte) (s : State) : Host.Outcome State Fault Refusal :=
  if s.fd.pcnt.toNat < s.cfg.payloadCap then
    s.fed { s.fd with
      pay := Memory.write s.fd.pay s.fd.pcnt.toNat b
      pcnt := s.fd.pcnt + 1
      st := if s.fd.pcnt.toNat + 1 = s.fd.len.toNat then .trailer else s.fd.st } none
  else .refused .unreachableState

/-- R106: the last trailer byte, the fourth with the document's `TRAILER_LEN`, leaves TRAILER. A state whose counter is
outside the trailer is refused (U11). -/
def takeTrailer (b : Byte) (s : State) : Host.Outcome State Fault Refusal :=
  if s.fd.tcnt + 1 = s.cfg.trailerLen then
    s.fed { s.fd with trl := Memory.write s.fd.trl s.fd.tcnt b, st := .terminator } none
  else if s.fd.tcnt < s.cfg.trailerLen then
    s.fed { s.fd with trl := Memory.write s.fd.trl s.fd.tcnt b, tcnt := s.fd.tcnt + 1 } none
  else .refused .unreachableState

/-- The frame the registers hold (R107). -/
def heldFrame (c : Config) (fd : Fd) : Frame :=
  { command := fd.cmd, length := fd.len, payload := Memory.firstBytes fd.pay fd.len.toNat,
    trailer := Memory.firstBytes fd.trl c.trailerLen, terminator := c.endMark }

/-- R107: emit the held frame. -/
def takeEnd (s : State) : Host.Outcome State Fault Refusal :=
  s.fed s.fd.toWaitStart (some (heldFrame s.cfg s.fd))

/-! ## The FDOP rows -/

/-- `feed(b)` (R100). -/
def execFeed (b : Byte) (s : State) : Host.Outcome State Fault Refusal :=
  match s.fd.slot with
  | .waitStart => if b = s.cfg.head then takeHead s else takeNothing s
  | .command => takeCommand b s
  | .lenLo => takeLenLo b s
  | .lenHi => takeLenHi b s
  | .payload => takePayload b s
  | .trailer => takeTrailer b s
  | .terminator => if b = s.cfg.endMark then takeEnd s else takeNothing s

/-- `reset()` (R109). -/
def execReset (s : State) : Host.Outcome State Fault Refusal :=
  .next ((s.setFd s.fd.toWaitStart).log .reset)

/-- `fd_nop` (R110). -/
def execFdNop (s : State) : Host.Outcome State Fault Refusal := .next s

/-- The reserved operation word (R82): a model refuses it (U9). -/
def execFdReserved (_s : State) : Host.Outcome State Fault Refusal := .refused .reservedFdOp

/-! ## The BYTE rows -/

/-- `feed.wait_start.head` (R101). -/
def execFeedWaitStartHead (s : State) : Host.Outcome State Fault Refusal :=
  whenSelected (s.fd.slot = .waitStart) (takeHead s)

/-- `feed.wait_start.other` (R101): HEAD belongs to the row of higher priority. -/
def execFeedWaitStartOther (b : Byte) (s : State) : Host.Outcome State Fault Refusal :=
  whenSelected (s.fd.slot = .waitStart ∧ b ≠ s.cfg.head) (takeNothing s)

/-- `feed.header.cmd` (R102). -/
def execFeedHeaderCmd (b : Byte) (s : State) : Host.Outcome State Fault Refusal :=
  whenSelected (s.fd.slot = .command) (takeCommand b s)

/-- `feed.header.len_lo` (R103). -/
def execFeedHeaderLenLo (b : Byte) (s : State) : Host.Outcome State Fault Refusal :=
  whenSelected (s.fd.slot = .lenLo) (takeLenLo b s)

/-- `feed.header.len_hi` (R104). -/
def execFeedHeaderLenHi (b : Byte) (s : State) : Host.Outcome State Fault Refusal :=
  whenSelected (s.fd.slot = .lenHi) (takeLenHi b s)

/-- `feed.payload` (R105). -/
def execFeedPayload (b : Byte) (s : State) : Host.Outcome State Fault Refusal :=
  whenSelected (s.fd.slot = .payload) (takePayload b s)

/-- `feed.trailer` (R106). -/
def execFeedTrailer (b : Byte) (s : State) : Host.Outcome State Fault Refusal :=
  whenSelected (s.fd.slot = .trailer) (takeTrailer b s)

/-- `feed.terminator.end` (R107). -/
def execFeedTerminatorEnd (s : State) : Host.Outcome State Fault Refusal :=
  whenSelected (s.fd.slot = .terminator) (takeEnd s)

/-- `feed.terminator.other` (R108): END belongs to the row of higher priority. -/
def execFeedTerminatorOther (b : Byte) (s : State) : Host.Outcome State Fault Refusal :=
  whenSelected (s.fd.slot = .terminator ∧ b ≠ s.cfg.endMark) (takeNothing s)

end Sys2Proof.Machine
end

