-- ==== Sys2Proof/Machine/SignalExtractor.lean ====
section
/-!
DEFINITION. The Signal Extractor (41_signal_extractor.md): `extract` as a pure function of a frame (R130 to R139) and
the four FRAME rows, each giving the environment the candidates of its frame and changing no register.
-/

namespace Sys2Proof.Machine

/-- The bound of every read: `length`, and never past the payload of a frame from elsewhere (R139, log entry 15). -/
def readBound (f : Frame) : Nat := min f.length.toNat f.payload.length

/-- The stride loop of R131 and R132: at offset `i` a candidate if the whole stride is inside the bound, then the next
stride. `fuel` counts iterations; the bound itself is always enough, since a stride moves forward. -/
def strideLoop (f : Frame) (kind : Kind) (stride confOff : Nat) : Nat → Nat → List Candidate
  | 0, _ => []
  | fuel + 1, i =>
    if i < readBound f then
      if i + confOff < readBound f then
        ⟨f.payload.getD i 0, f.payload.getD (i + confOff) 0, kind⟩ :: strideLoop f kind stride confOff fuel (i + stride)
      else strideLoop f kind stride confOff fuel (i + stride)
    else []

/-- The candidates of a classification frame (R131). -/
def classificationCandidates (c : Config) (f : Frame) : List Candidate :=
  strideLoop f .classification c.clsStride 1 (readBound f) c.clsFirst

/-- The candidates of a detection frame (R132). -/
def detectionCandidates (c : Config) (f : Frame) : List Candidate :=
  strideLoop f .detection c.detStride c.detConfOff (readBound f) c.detFirst

/-- `extract(f)` (R130). -/
def extract (c : Config) (f : Frame) : List Candidate :=
  if f.command = c.cmdClassification then classificationCandidates c f
  else if f.command = c.cmdDetection then detectionCandidates c f
  else []

/-- Give the environment the candidates of a frame that the row is for (R88, R130); no register changes. -/
def State.extracted (s : State) (rowIsSelected : Prop) [Decidable rowIsSelected] (cs : List Candidate) :
    Host.Outcome State Fault Refusal :=
  if rowIsSelected then .next (s.log (.extract cs)) else .refused .frameRowNotSelected

/-- `extract.keypoint_box_detection` (R133). -/
def execExtractKeypoint (f : Frame) (s : State) : Host.Outcome State Fault Refusal :=
  s.extracted (f.command = s.cfg.cmdKeypoint) []

/-- `extract.classification` (R131). -/
def execExtractClassification (f : Frame) (s : State) : Host.Outcome State Fault Refusal :=
  s.extracted (f.command = s.cfg.cmdClassification) (classificationCandidates s.cfg f)

/-- `extract.detection` (R132). -/
def execExtractDetection (f : Frame) (s : State) : Host.Outcome State Fault Refusal :=
  s.extracted (f.command = s.cfg.cmdDetection) (detectionCandidates s.cfg f)

/-- `extract.reserved` (R134). -/
def execExtractReserved (f : Frame) (s : State) : Host.Outcome State Fault Refusal :=
  s.extracted (s.cfg.Reserved f.command) []

end Sys2Proof.Machine
end

