-- ==== Sys2Proof/Machine/Smoother.lean ====
section
/-!
DEFINITION. The majority-vote smoother (42_vote_smoother.md): the vote on the counter registers (R151), `sample`
(R154 to R157), `evaluate` (R158), `clear` (R159), `mv_nop` (R160).
-/

namespace Sys2Proof.Machine

/-- The greatest of a list of counts, 0 for none. -/
def greatest : List Nat → Nat
  | [] => 0
  | n :: ns => max n (greatest ns)

/-- The id of a list whose last occurrence is greatest. -/
def mostRecent (last : Nat → Nat) : List Nat → Option Nat
  | [] => none
  | k :: ks =>
    match mostRecent last ks with
    | none => some k
    | some j => if last j < last k then some k else some j

/-- The ids whose count is the highest of all K counts (`T` of R151). -/
def tiedIds (c : Config) (mv : Mv) : List Nat :=
  (List.range c.numIds).filter fun k =>
    Counters.read mv.cnt k = greatest ((List.range c.numIds).map (Counters.read mv.cnt))

/-- `Vote()` (R151). -/
def vote (c : Config) (mv : Mv) : Resolution :=
  if mv.wlen = 0 then .noSignal
  else
    match mostRecent (Counters.read mv.last) (tiedIds c mv) with
    | some k => .signal (BitVec.ofNat 8 k)
    | none => .noSignal

/-- The four writes of an accepted sample (R157); every read sees the registers before it. -/
def Mv.accept (mv : Mv) (id : Byte) : Mv :=
  { wlen := mv.wlen + 1
    win  := Memory.write mv.win mv.wlen id
    cnt  := Counters.write mv.cnt id.toNat (Counters.read mv.cnt id.toNat + 1)
    last := Counters.write mv.last id.toNat mv.wlen }

/-- The result of an accepted sample: the vote after it, if it fills the window (R157). -/
def acceptResult (c : Config) (mv : Mv) (id : Byte) : Option Resolution :=
  if mv.wlen + 1 = c.windowCap then some (vote c (mv.accept id)) else none

/-- `sample(id)` (R154): ignored if not valid (R155), dropped if the window is full (R156), else accepted (R157).
The index is inside the window in every reachable state (R37(a)); a state in which it is not is refused (U11). -/
def execSample (id : Byte) (s : State) : Host.Outcome State Fault Refusal :=
  if IdValid s.cfg id then
    if s.mv.wlen = s.cfg.windowCap then .next (s.log (.sample none))
    else if s.mv.wlen < s.cfg.windowCap then
      .next ((s.setMv (s.mv.accept id)).log (.sample (acceptResult s.cfg s.mv id)))
    else .refused .unreachableState
  else .next (s.log (.sample none))

/-- `evaluate()` (R158). -/
def execEvaluate (s : State) : Host.Outcome State Fault Refusal :=
  .next (s.log (.evaluate (vote s.cfg s.mv)))

/-- `clear()` (R159). -/
def execClear (s : State) : Host.Outcome State Fault Refusal :=
  .next ((s.setMv s.mv.emptied).log .clear)

/-- `mv_nop` (R160). -/
def execMvNop (s : State) : Host.Outcome State Fault Refusal := .next s

end Sys2Proof.Machine
end

