-- ==== Sys2Proof/Machine/Dispatch.lean ====
section
/-!
DEFINITION. One arm per instruction of the opcode table.
-/

namespace Sys2Proof.Machine

/-- What each instruction does. -/
def exec (i : Instr) (s : State) : Host.Outcome State Fault Refusal :=
  match i with
  | .fdNop => Sys2Proof.Machine.execFdNop s
  | .feed b => Sys2Proof.Machine.execFeed b s
  | .reset => Sys2Proof.Machine.execReset s
  | .fdReserved => Sys2Proof.Machine.execFdReserved s
  | .mvNop => Sys2Proof.Machine.execMvNop s
  | .sample id => Sys2Proof.Machine.execSample id s
  | .evaluate => Sys2Proof.Machine.execEvaluate s
  | .clear => Sys2Proof.Machine.execClear s
  | .feedWaitStartHead => Sys2Proof.Machine.execFeedWaitStartHead s
  | .feedWaitStartOther b => Sys2Proof.Machine.execFeedWaitStartOther b s
  | .feedHeaderCmd b => Sys2Proof.Machine.execFeedHeaderCmd b s
  | .feedHeaderLenLo b => Sys2Proof.Machine.execFeedHeaderLenLo b s
  | .feedHeaderLenHi b => Sys2Proof.Machine.execFeedHeaderLenHi b s
  | .feedPayload b => Sys2Proof.Machine.execFeedPayload b s
  | .feedTrailer b => Sys2Proof.Machine.execFeedTrailer b s
  | .feedTerminatorEnd => Sys2Proof.Machine.execFeedTerminatorEnd s
  | .feedTerminatorOther b => Sys2Proof.Machine.execFeedTerminatorOther b s
  | .extractKeypoint f => Sys2Proof.Machine.execExtractKeypoint f s
  | .extractClassification f => Sys2Proof.Machine.execExtractClassification f s
  | .extractDetection f => Sys2Proof.Machine.execExtractDetection f s
  | .extractReserved f => Sys2Proof.Machine.execExtractReserved f s

end Sys2Proof.Machine
end

