-- ==== Sys2Proof/Machine/Port.lean ====
section
/-!
DEFINITION. The port binding (30_encoding.md R84, R85, 60_exceptions.md R187) and how one stimulus of the environment
is performed. The binding is the spec's own optional choice (D2); no operation depends on it.
-/

namespace Sys2Proof.Machine

/-- Whether the last performed `FD` instruction emitted a frame, for the pulse `frame_valid`. -/
def emittedBy (i : Instr) (after : State) : Bool :=
  match i, after.events with
  | .feed _, .feed (some _) :: _ => true
  | _, _ => false

/-- The resolution the last performed `MV` instruction returned, for the pulse `res_valid`. -/
def resolvedBy (i : Instr) (after : State) : Option Resolution :=
  match i, after.events with
  | .sample _, .sample r :: _ => r
  | .evaluate, .evaluate r :: _ => some r
  | _, _ => none

/-- The pulses after an edge at which both operations were performed: not latched, anew at every edge (R186). -/
def pulsesAfter (s sFd sMv : State) (fdI mvI : Instr) : Port :=
  { frameValid := emittedBy fdI sFd, res := resolvedBy mvI sMv, edges := s.port.edges + 1 }

/-- One clock edge (R85): `rst` overrides both operation fields (R187); otherwise the FD operation and the MV operation
are both performed. -/
def clockEdge (rst : Bool) (fdOp mvOp : OpWord) (s : State) : Host.Outcome State Fault Refusal :=
  if rst then
    .next (s.hardwareReset.setPort ⟨false, none, s.port.edges + 1⟩)
  else
    match exec (decodeFdWord fdOp) s with
    | .next sFd =>
      match exec (decodeMvWord mvOp) sFd with
      | .next sMv => .next (sMv.setPort (pulsesAfter s sFd sMv (decodeFdWord fdOp) (decodeMvWord mvOp)))
      | o => o
    | o => o

/-- One stimulus of the environment. -/
def perform (x : Stimulus) (s : State) : Host.Outcome State Fault Refusal :=
  match x with
  | .op i =>
    match decodeIn s i with
    | .ok instr => exec instr s
    | .error e => .refused (.undecodable e)
  | .edge rst fdOp mvOp => clockEdge rst fdOp mvOp s
  | .hardwareReset => .next s.hardwareReset

/-- The output ports of the block between two edges (R85), other than `pay_rdata`. -/
structure PortOut where
  frameValid : Bool
  frameCmd   : Byte
  frameLen   : U16
  frameTrl   : List Byte
  fdState    : BitVec 3
  fdBusy     : Bool
  resValid   : Bool
  resHas     : Bool
  resId      : Byte
  mvLen      : Nat
  mvEmpty    : Bool
  mvFull     : Bool
  deriving DecidableEq, Repr

/-- `res_has` and `res_id` of a resolution (R84, D16). -/
def resolutionBits : Resolution → Bool × Byte
  | .signal id => (true, id)
  | .noSignal => (false, 0xFF)

/-- A port value the spec gives no meaning (U12), free for every output and every edge. -/
def freePort (s : State) (output : Nat) : Byte := Config.freeByte s.port.edges output

/-- The outputs (R84, R85). The frame outputs are read in place while the guarantee of R63 holds; they, and the
resolution outputs while `res_valid` = 0, are free values otherwise (U12, log entry 17). -/
def portOut (s : State) : PortOut :=
  { frameValid := s.port.frameValid
    frameCmd := if frameInPlace s.events then s.fd.cmd else freePort s 0
    frameLen := if frameInPlace s.events then s.fd.len else U16.make (freePort s 1) (freePort s 2)
    frameTrl := (List.range s.cfg.trailerLen).map fun i =>
      if frameInPlace s.events then Memory.read s.fd.trl i else freePort s (5 + 2 * i)
    fdState := fdState s
    fdBusy := fdBusy s
    resValid := s.port.res.isSome
    resHas := match s.port.res with
      | some r => (resolutionBits r).1
      | none => (freePort s 3).getLsbD 0
    resId := match s.port.res with
      | some r => (resolutionBits r).2
      | none => freePort s 4
    mvLen := mvLen s
    mvEmpty := mvEmpty s
    mvFull := mvFull s }

/-- `pay_rdata` for `pay_raddr` (R85): a payload byte of the frame in place, free beyond its length (U12). -/
def payRdata (s : State) (raddr : U16) : Byte :=
  if frameInPlace s.events ∧ raddr.toNat < s.fd.len.toNat then Memory.read s.fd.pay raddr.toNat
  else freePort s (6 + 2 * raddr.toNat)

end Sys2Proof.Machine
end

