-- ==== Sys2Proof/Machine/Step.lean ====
section
/-!
DEFINITION. One step: the environment issues its next stimulus and the block performs it. With nothing issued nothing
happens (70_reset_and_hazards.md R227).
-/

namespace Sys2Proof.Machine

/-- One step. A configuration outside its domains is no configuration of this block (R6, U14). -/
def step (s : State) : Host.Outcome State Fault Refusal :=
  match s.pending with
  | [] => .next s
  | x :: rest => if s.cfg.Legal then perform x (s.setPending rest) else .refused .illegalConfiguration

/-- The state whose next step performs a word of opcode_table.json: its issue is put before what is pending. A BYTE row
is selected by the decoder's state, so the decoder stands at that row's position (log entry 11). -/
def State.withFetchWord (s : State) (nbits w : Nat) : State :=
  { s with
    pending := .op (tableIssue s.cfg nbits w) :: s.pending
    fd := if nbits ≤ 8 then
        { s.fd with st := if tableSlot s.cfg nbits w = .terminator then .terminator else .waitStart }
      else s.fd }

end Sys2Proof.Machine
end

