-- ==== Sys2Proof/Safety.lean ====
section
/-!
DEFINITION. The terms claims are stated in: the shape of a completed operation, runs of fed bytes, the invariants of
10_state.md R30 and R37, which registers are live (R29), the tagged-union view of `FD` (R31), and the smoother as a
function of the window's contents (42_vote_smoother.md R152).
-/

namespace Sys2Proof.Machine

/-! ## Completed operations -/

/-- The state after an operation: the registers it leaves, its result given to the environment, and nothing else
changed: not the configuration, the port's pulses or what is still to be issued. -/
def State.after (s : State) (fd : Fd) (mv : Mv) (e : Event) : State :=
  { s with fd := fd, mv := mv, events := e :: s.events }

/-- The unit an instruction belongs to (R81); `SX` takes no step of an agent (R10). -/
inductive Owner where
  | fd
  | mv
  | sx
  deriving DecidableEq, Repr

/-- Which unit's registers an instruction may read and write (R62). -/
def unitOf : Instr → Owner
  | .fdNop | .feed _ | .reset | .fdReserved => .fd
  | .mvNop | .sample _ | .evaluate | .clear => .mv
  | .feedWaitStartHead | .feedWaitStartOther _ | .feedHeaderCmd _ | .feedHeaderLenLo _ | .feedHeaderLenHi _ => .fd
  | .feedPayload _ | .feedTrailer _ | .feedTerminatorEnd | .feedTerminatorOther _ => .fd
  | .extractKeypoint _ | .extractClassification _ | .extractDetection _ | .extractReserved _ => .sx

/-! ## Runs of operations (R11, R119) -/

/-- Perform some instructions in order. -/
def execAll (s : State) : List Instr → Host.Outcome State Fault Refusal
  | [] => .next s
  | i :: is =>
    match exec i s with
    | .next t => execAll t is
    | o => o

/-- Feed the bytes in order. -/
def feedAll (s : State) (bs : List Byte) : Host.Outcome State Fault Refusal := execAll s (bs.map Instr.feed)

/-- The frames among some results, newest first as the results are. -/
def framesIn : List Event → List Frame
  | .feed (some f) :: es => f :: framesIn es
  | .feed none :: es => framesIn es
  | .reset :: es | .extract _ :: es | .sample _ :: es | .evaluate _ :: es | .clear :: es | .hardwareReset :: es =>
    framesIn es
  | [] => []

/-! ## Invariants -/

/-- The addresses of a cell list are below a bound. -/
def Cells.below {α : Type} (bound : Nat) (m : List (Nat × α)) : Bool := m.all fun x => decide (x.1 < bound)

/-- The relations between the position and the counters (R29's value columns, R30). -/
abbrev Fd.PositionOk (fd : Fd) : Prop :=
  match fd.st with
  | .waitStart => True
  | .header => fd.pcnt = 0 ∧ fd.tcnt = 0
  | .payload => fd.pcnt.toNat < fd.len.toNat ∧ fd.tcnt = 0
  | .trailer => fd.pcnt = fd.len
  | .terminator => fd.pcnt = fd.len

/-- The invariant of `FD` (R30), with the canonical forms and the ranges of its registers (R26 to R28). -/
structure Fd.Inv (c : Config) (fd : Fd) : Prop where
  pay_wf : Memory.wf fd.pay = true ∧ Cells.below c.payloadCap fd.pay = true
  trl_wf : Memory.wf fd.trl = true ∧ Cells.below c.trailerLen fd.trl = true
  /-- R27: the counter's range. -/
  tcnt_lt : fd.tcnt < c.trailerLen
  /-- R30(b) to (d). -/
  position : fd.PositionOk

/-- The window: the live entries in arrival order (R34). -/
def Mv.window (mv : Mv) : List Byte := Memory.firstBytes mv.win mv.wlen

/-- The invariant of `MV` (R37), with the canonical forms and index ranges of its files (R33 to R36). -/
structure Mv.Inv (c : Config) (mv : Mv) : Prop where
  /-- R37(a). -/
  wlen_le : mv.wlen ≤ c.windowCap
  /-- R37(b). -/
  valid : ∀ i < mv.wlen, IdValid c (Memory.read mv.win i)
  /-- R37(c). -/
  counts : ∀ k < c.numIds, Counters.read mv.cnt k = mv.window.countP fun id => decide (id.toNat = k)
  /-- R37(e). -/
  lasts : ∀ k < c.numIds, 0 < Counters.read mv.cnt k →
    Counters.read mv.last k < mv.wlen ∧ (Memory.read mv.win (Counters.read mv.last k)).toNat = k ∧
      ∀ i < mv.wlen, (Memory.read mv.win i).toNat = k → i ≤ Counters.read mv.last k
  /-- R36: a last-occurrence entry is an index of the window. -/
  last_range : ∀ k, Counters.read mv.last k < c.windowCap
  win_wf : Memory.wf mv.win = true ∧ Cells.below c.windowCap mv.win = true
  cnt_wf : Counters.wf mv.cnt = true ∧ Cells.below c.numIds mv.cnt = true
  last_wf : Counters.wf mv.last = true ∧ Cells.below c.numIds mv.last = true

/-- A resolution of this configuration: its id, if any, is valid (R9, R153(f)). -/
def ResolutionValid (c : Config) : Resolution → Prop
  | .noSignal => True
  | .signal id => IdValid c id

/-- What a result may be: an emitted frame has |payload| = length and END (R30(e), R9); an early decision is a signal
(R157); every resolved id is valid (R153(f)). -/
def Event.Valid (c : Config) : Event → Prop
  | .feed (some f) => f.WellFormed c
  | .sample (some r) => r ≠ .noSignal ∧ ResolutionValid c r
  | .evaluate r => ResolutionValid c r
  | .feed none | .sample none | .reset | .extract _ | .clear | .hardwareReset => True

/-- The hand-off: while the frame is in place, the registers hold the frame that the nearest `feed` returned (R63). -/
def State.HandOff (s : State) : Prop :=
  frameInPlace s.events = true →
    s.fd.st = .waitStart ∧ returnedFrame s.events = some (heldFrame s.cfg s.fd)

/-- The invariant of the machine. -/
structure State.Inv (s : State) : Prop where
  legal   : s.cfg.Legal
  fd      : s.fd.Inv s.cfg
  mv      : s.mv.Inv s.cfg
  events  : ∀ e ∈ s.events, e.Valid s.cfg
  shown   : ∀ r, s.port.res = some r → ResolutionValid s.cfg r
  handOff : s.HandOff

/-! ## Live registers (R29's table, R34, R36) -/

/-- `FD.hcnt` is live. -/
def Fd.HcntLive (fd : Fd) : Prop := fd.st = .header

/-- `FD.cmd` is live. -/
def Fd.CmdLive (fd : Fd) : Prop := fd.st ≠ .waitStart ∧ (fd.st = .header → fd.hcnt ≠ 0)

/-- Bits 7:0 of `FD.len` are live. -/
def Fd.LenLowLive (fd : Fd) : Prop := fd.st ≠ .waitStart ∧ (fd.st = .header → fd.hcnt = 2)

/-- Bits 15:8 of `FD.len` are live. -/
def Fd.LenHighLive (fd : Fd) : Prop := fd.st ≠ .waitStart ∧ fd.st ≠ .header

/-- `FD.pcnt` is live. -/
def Fd.PcntLive (fd : Fd) : Prop := fd.st ≠ .waitStart

/-- `FD.pay[a]` is live. -/
def Fd.PayLive (fd : Fd) (a : Nat) : Prop :=
  match fd.st with
  | .payload => a < fd.pcnt.toNat
  | .trailer | .terminator => a < fd.len.toNat
  | .waitStart | .header => False

/-- `FD.tcnt` is live. -/
def Fd.TcntLive (fd : Fd) : Prop := fd.st ≠ .waitStart ∧ fd.st ≠ .terminator

/-- `FD.trl[i]` is live. -/
def Fd.TrlLive (c : Config) (fd : Fd) (i : Nat) : Prop :=
  match fd.st with
  | .trailer => i < fd.tcnt
  | .terminator => i < c.trailerLen
  | .waitStart | .header | .payload => False

/-- The same position: the same state, and the same counters and length as far as these are live. -/
structure Fd.SamePosition (f g : Fd) : Prop where
  st      : f.st = g.st
  hcnt    : f.HcntLive → f.hcnt = g.hcnt
  lenLow  : f.LenLowLive → U16.lowByte f.len = U16.lowByte g.len
  lenHigh : f.LenHighLive → U16.highByte f.len = U16.highByte g.len
  pcnt    : f.PcntLive → f.pcnt = g.pcnt
  tcnt    : f.TcntLive → f.tcnt = g.tcnt

/-- `MV.win[i]` is live. -/
def Mv.WinLive (mv : Mv) (i : Nat) : Prop := i < mv.wlen

/-- `MV.last[k]` is live. -/
def Mv.LastLive (mv : Mv) (k : Nat) : Prop := 0 < Counters.read mv.cnt k

/-! ## The tagged-union view of the decoder (R31) -/

/-- One alternative per state, carrying only what is live in it. -/
inductive FdView where
  | waitStart
  | header (got : List Byte)
  | payload (cmd : Byte) (len : U16) (got : List Byte)
  | trailer (cmd : Byte) (len : U16) (payload got : List Byte)
  | terminator (cmd : Byte) (len : U16) (payload trailer : List Byte)
  deriving DecidableEq, Repr

/-- What the registers stand for (R29, R31). -/
def Fd.view (c : Config) (fd : Fd) : FdView :=
  match fd.st with
  | .waitStart => .waitStart
  | .header => .header ([fd.cmd, U16.lowByte fd.len].take fd.hcnt)
  | .payload => .payload fd.cmd fd.len (Memory.firstBytes fd.pay fd.pcnt.toNat)
  | .trailer => .trailer fd.cmd fd.len (Memory.firstBytes fd.pay fd.len.toNat) (Memory.firstBytes fd.trl fd.tcnt)
  | .terminator => .terminator fd.cmd fd.len (Memory.firstBytes fd.pay fd.len.toNat)
    (Memory.firstBytes fd.trl c.trailerLen)

/-- Start the payload of a frame, or its trailer where the length is 0 (R104). -/
def FdView.begin (cmd : Byte) (len : U16) : FdView :=
  if len = 0 then .trailer cmd len [] [] else .payload cmd len []

/-- `feed` on the view: the next alternative and the result. -/
def FdView.feed (c : Config) (b : Byte) : FdView → FdView × Option Frame
  | .waitStart => (if b = c.head then .header [] else .waitStart, none)
  | .header [] => (.header [b], none)
  | .header [cmd] => (.header [cmd, b], none)
  | .header (cmd :: lo :: _) => (.begin cmd (U16.make b lo), none)
  | .payload cmd len got =>
    (if (got ++ [b]).length = len.toNat then .trailer cmd len (got ++ [b]) [] else .payload cmd len (got ++ [b]), none)
  | .trailer cmd len p got =>
    (if (got ++ [b]).length = c.trailerLen then .terminator cmd len p (got ++ [b]) else .trailer cmd len p (got ++ [b]),
      none)
  | .terminator cmd len p t =>
    if b = c.endMark then (.waitStart, some ⟨cmd, len, p, t, b⟩) else (.terminator cmd len p t, none)

/-- Two states that agree on the configuration and on everything live (R29), and meet the invariants of both units. No
operation tells them apart. -/
structure SameLive (s t : State) : Prop where
  cfg    : s.cfg = t.cfg
  legal  : s.cfg.Legal
  fd     : s.fd.Inv s.cfg ∧ t.fd.Inv t.cfg
  mv     : s.mv.Inv s.cfg ∧ t.mv.Inv t.cfg
  view   : s.fd.view s.cfg = t.fd.view t.cfg
  window : s.mv.window = t.mv.window

/-! ## Reset values (R42) -/

/-- What R42's table says of `FD` after a reset that covers it: WAIT_START, nothing live. -/
abbrev FdAfterReset (s : State) : Prop :=
  s.fd.st = .waitStart ∧ s.fd.view s.cfg = .waitStart ∧ fdState s = 0 ∧ fdBusy s = false

/-- What R42's table says of `MV` after a reset that covers it: every count 0, an empty window. -/
abbrev MvAfterReset (s : State) : Prop :=
  s.mv.wlen = 0 ∧ s.mv.window = [] ∧ (∀ k, k < s.cfg.numIds → Counters.read s.mv.cnt k = 0) ∧
  mvLen s = 0 ∧ mvEmpty s = true ∧ mvFull s = false

/-! ## The smoother as a function of the window (R152) -/

/-- The greatest index at which `k` stands in `w` (`lastidx` of R152), 0 where it does not occur. -/
def lastIdx (w : List Byte) (k : Byte) : Nat := w.length - 1 - w.reverse.idxOf k

/-- `j` is behind `k` in the order of the vote: by count, then by last index (R152). -/
abbrev Behind (w : List Byte) (j k : Byte) : Prop :=
  w.count j < w.count k ∨ (w.count j = w.count k ∧ lastIdx w j < lastIdx w k)

/-- The foremost of some ids in the order of the vote on `w`. -/
def foremost (w : List Byte) : List Byte → Option Byte
  | [] => none
  | k :: ks =>
    match foremost w ks with
    | none => some k
    | some j => if Behind w j k then some k else some j

/-- `VoteSeq(w)`: the document's `evaluate(samples)` (R152). -/
def voteSeq (w : List Byte) : Resolution :=
  match foremost w w with
  | none => .noSignal
  | some k => .signal k

/-- `sample` on a window held as a sequence: the next window and the result (R154 to R157). -/
def sampleSeq (c : Config) (w : List Byte) (id : Byte) : List Byte × Option Resolution :=
  if IdValid c id ∧ w.length < c.windowCap then
    (w ++ [id], if w.length + 1 = c.windowCap then some (voteSeq (w ++ [id])) else none)
  else (w, none)

end Sys2Proof.Machine
end

