-- ==== Sys2Proof/Certificates/Slice0/Obligations.lean ====
section
/-!
DEFINITION. The statements for the provers. Results are stated through `State.after`, which leaves the configuration,
the port's pulses and the pending operations as they were; a result stands at the head of `events` (log entry 7).
A statement about every state is one about every configuration (log entry 1).
-/

open Sys2Proof Sys2Proof.Machine

/-! ## The Frame Decoder, rule by rule -/

/-- R101: in WAIT_START the head marker starts a new in-progress frame, of which nothing but the counters is live, and any
other byte is ignored. -/
def Obligations.FeedScansForHead : Prop :=
  ∀ (s : State) (b : Byte), s.fd.st = .waitStart →
    (b = s.cfg.head →
      ∃ fd', exec (.feed b) s = .next (s.after fd' s.mv (.feed none)) ∧
        exec .feedWaitStartHead s = .next (s.after fd' s.mv (.feed none)) ∧
        fd'.st = .header ∧ fd'.hcnt = 0 ∧ fd'.pcnt = 0 ∧ fd'.tcnt = 0 ∧ fd'.view s.cfg = .header [] ∧
        fdState (s.after fd' s.mv (.feed none)) = 1 ∧ fdBusy (s.after fd' s.mv (.feed none)) = true) ∧
    (b ≠ s.cfg.head →
      exec (.feed b) s = .next (s.after s.fd s.mv (.feed none)) ∧
        exec (.feedWaitStartOther b) s = .next (s.after s.fd s.mv (.feed none)))

/-- R102: the byte after HEAD is stored as the command, unchecked. -/
def Obligations.FeedStoresCommand : Prop :=
  ∀ (s : State) (b : Byte), s.fd.st = .header → s.fd.hcnt = 0 →
    ∃ fd', exec (.feed b) s = .next (s.after fd' s.mv (.feed none)) ∧
      exec (.feedHeaderCmd b) s = .next (s.after fd' s.mv (.feed none)) ∧
      fd'.cmd = b ∧ fd'.hcnt = 1 ∧ fd'.st = .header ∧ fd'.pcnt = s.fd.pcnt ∧ fd'.tcnt = s.fd.tcnt

/-- R103: LEN_LO goes to bits 7:0 of the length; bits 15:8 are void before and after (R29). -/
def Obligations.FeedStoresLengthLow : Prop :=
  ∀ (s : State) (b : Byte), s.fd.st = .header → s.fd.hcnt = 1 →
    ∃ fd', exec (.feed b) s = .next (s.after fd' s.mv (.feed none)) ∧
      exec (.feedHeaderLenLo b) s = .next (s.after fd' s.mv (.feed none)) ∧
      fd'.len.toNat % 256 = b.toNat ∧
      fd'.hcnt = 2 ∧ fd'.st = .header ∧ fd'.cmd = s.fd.cmd ∧ fd'.pcnt = s.fd.pcnt ∧ fd'.tcnt = s.fd.tcnt

/-- R104: LEN_HI completes the length; a zero length goes straight to TRAILER. -/
def Obligations.FeedCompletesLength : Prop :=
  ∀ (s : State) (b : Byte), s.fd.st = .header → s.fd.hcnt = 2 →
    ∃ fd', exec (.feed b) s = .next (s.after fd' s.mv (.feed none)) ∧
      exec (.feedHeaderLenHi b) s = .next (s.after fd' s.mv (.feed none)) ∧
      fd'.len.toNat = 256 * b.toNat + s.fd.len.toNat % 256 ∧
      (fd'.len.toNat = 0 → fd'.st = .trailer ∧ fdState (s.after fd' s.mv (.feed none)) = 3) ∧
      (fd'.len.toNat ≠ 0 → fd'.st = .payload ∧ fdState (s.after fd' s.mv (.feed none)) = 2) ∧
      fd'.cmd = s.fd.cmd ∧ fd'.pcnt = s.fd.pcnt ∧ fd'.tcnt = s.fd.tcnt

/-- R105: the payload byte is stored at the counter, the bytes before it unchanged; the last one leaves PAYLOAD. -/
def Obligations.FeedStoresPayloadByte : Prop :=
  ∀ (s : State) (b : Byte), s.cfg.Legal → s.fd.st = .payload → s.fd.pcnt.toNat < s.fd.len.toNat →
    ∃ fd', exec (.feed b) s = .next (s.after fd' s.mv (.feed none)) ∧
      exec (.feedPayload b) s = .next (s.after fd' s.mv (.feed none)) ∧
      Memory.read fd'.pay s.fd.pcnt.toNat = b ∧
      (∀ a, a < s.fd.pcnt.toNat → Memory.read fd'.pay a = Memory.read s.fd.pay a) ∧
      fd'.pcnt.toNat = s.fd.pcnt.toNat + 1 ∧
      (s.fd.pcnt.toNat + 1 = s.fd.len.toNat →
        fd'.st = .trailer ∧ fdState (s.after fd' s.mv (.feed none)) = 3) ∧
      (s.fd.pcnt.toNat + 1 ≠ s.fd.len.toNat → fd'.st = .payload) ∧
      fd'.cmd = s.fd.cmd ∧ fd'.len = s.fd.len ∧ fd'.tcnt = s.fd.tcnt

/-- R106: the trailer byte is stored at the counter, unchecked, the bytes before it unchanged; the last one, the fourth with
the document's TRAILER_LEN, leaves TRAILER. -/
def Obligations.FeedStoresTrailerByte : Prop :=
  ∀ (s : State) (b : Byte), s.fd.st = .trailer → s.fd.tcnt < s.cfg.trailerLen →
    ∃ fd', exec (.feed b) s = .next (s.after fd' s.mv (.feed none)) ∧
      exec (.feedTrailer b) s = .next (s.after fd' s.mv (.feed none)) ∧
      Memory.read fd'.trl s.fd.tcnt = b ∧
      (∀ i, i < s.fd.tcnt → Memory.read fd'.trl i = Memory.read s.fd.trl i) ∧
      (s.fd.tcnt + 1 = s.cfg.trailerLen → fd'.st = .terminator ∧ fdState (s.after fd' s.mv (.feed none)) = 4) ∧
      (s.fd.tcnt + 1 ≠ s.cfg.trailerLen → fd'.st = .trailer ∧ fd'.tcnt = s.fd.tcnt + 1) ∧
      fd'.cmd = s.fd.cmd ∧ fd'.len = s.fd.len ∧ fd'.pcnt = s.fd.pcnt ∧
      (∀ a, a < s.fd.len.toNat → Memory.read fd'.pay a = Memory.read s.fd.pay a)

/-- R107: END in TERMINATOR returns the frame the registers hold, after which nothing of it is live, and at port level
`frame_valid` is raised at the edge. -/
def Obligations.FeedEmitsHeldFrame : Prop :=
  ∀ (s : State), s.fd.st = .terminator →
    ∃ fd' f, exec (.feed s.cfg.endMark) s = .next (s.after fd' s.mv (.feed (some f))) ∧
      exec .feedTerminatorEnd s = .next (s.after fd' s.mv (.feed (some f))) ∧
      f.command = s.fd.cmd ∧ f.length = s.fd.len ∧ f.payload.length = s.fd.len.toNat ∧
      (∀ i, i < s.fd.len.toNat → f.payload[i]? = some (Memory.read s.fd.pay i)) ∧
      f.trailer.length = s.cfg.trailerLen ∧
      (∀ i, i < s.cfg.trailerLen → f.trailer[i]? = some (Memory.read s.fd.trl i)) ∧ f.terminator = s.cfg.endMark ∧
      fd'.st = .waitStart ∧ fd'.view s.cfg = .waitStart ∧
      fdState (s.after fd' s.mv (.feed (some f))) = 0 ∧ fdBusy (s.after fd' s.mv (.feed (some f))) = false ∧
      (∃ t, clockEdge false (OpWord.make 1 s.cfg.endMark) (OpWord.make 0 0) s = .next t ∧ t.port.frameValid = true)

/-- R108: in TERMINATOR any byte but END is dropped and nothing changes. -/
def Obligations.FeedDropsWrongTerminator : Prop :=
  ∀ (s : State) (b : Byte), s.fd.st = .terminator → b ≠ s.cfg.endMark →
    exec (.feed b) s = .next (s.after s.fd s.mv (.feed none)) ∧
      exec (.feedTerminatorOther b) s = .next (s.after s.fd s.mv (.feed none))

/-- R109: `reset` goes to WAIT_START from any state, with nothing of the in-progress frame live after it, emits nothing,
leaves `MV` alone, and in WAIT_START changes nothing. -/
def Obligations.ResetReturnsToWaitStart : Prop :=
  ∀ (s : State), ∃ fd', exec .reset s = .next (s.after fd' s.mv .reset) ∧
    fd'.st = .waitStart ∧ fd'.view s.cfg = .waitStart ∧
    fdState (s.after fd' s.mv .reset) = 0 ∧ fdBusy (s.after fd' s.mv .reset) = false ∧
    (s.fd.st = .waitStart → fd' = s.fd)

/-- R110 and R160: the no-operations change nothing and return nothing. -/
def Obligations.NopsChangeNothing : Prop :=
  ∀ (s : State), exec .fdNop s = .next s ∧ exec .mvNop s = .next s

/-- R82 with U9: the reserved operation word is refused, by the operation and by the machine that fetches it. -/
def Obligations.ReservedFdOpIsRefused : Prop :=
  ∀ (s : State), exec .fdReserved s = .refused .reservedFdOp ∧
    ∀ (d : Byte) (rest : List Stimulus), s.cfg.Legal → s.pending = .op (.fdWord (OpWord.make 3 d)) :: rest →
      step s = .refused .reservedFdOp

/-- What `feed` and the BYTE rows leave unchanged: every live register but those the position's rule writes, and every
live byte of the payload buffer and of the trailer but the one at the counter. Nothing is said of a register that is void
after the operation (R29). -/
def Obligations.FeedKeepsOtherRegisters : Prop :=
  ∀ (s t : State) (b : Byte) (i : Instr), (i = .feed b ∨ i = decodeByte s.cfg s.fd.slot b) → exec i s = .next t →
    t.cfg = s.cfg ∧ t.mv = s.mv ∧ t.port = s.port ∧ t.pending = s.pending ∧
    (s.fd.slot ≠ .command → t.fd.CmdLive → t.fd.cmd = s.fd.cmd) ∧
    (s.fd.slot ≠ .lenLo → t.fd.LenLowLive → U16.lowByte t.fd.len = U16.lowByte s.fd.len) ∧
    (s.fd.slot ≠ .lenHi → t.fd.LenHighLive → U16.highByte t.fd.len = U16.highByte s.fd.len) ∧
    (s.fd.slot ≠ .waitStart → s.fd.slot ≠ .payload → t.fd.PcntLive → t.fd.pcnt = s.fd.pcnt) ∧
    (s.fd.slot ≠ .waitStart → s.fd.slot ≠ .trailer → t.fd.TcntLive → t.fd.tcnt = s.fd.tcnt) ∧
    (∀ a, t.fd.PayLive a → (s.fd.slot = .payload → a ≠ s.fd.pcnt.toNat) →
      Memory.read t.fd.pay a = Memory.read s.fd.pay a) ∧
    (∀ a, t.fd.TrlLive s.cfg a → (s.fd.slot = .trailer → a ≠ s.fd.tcnt) →
      Memory.read t.fd.trl a = Memory.read s.fd.trl a)

/-- `reset` leaves `MV` alone and `clear` `FD`, neither changes anything else of the machine, and of the unit each resets
nothing but `FD.st`, or `MV.wlen` and the counters, is live after it (R29, R42): what the others then hold is not said. -/
def Obligations.ResetAndClearKeepTheRest : Prop :=
  (∀ s t : State, exec .reset s = .next t →
    t.cfg = s.cfg ∧ t.mv = s.mv ∧ t.port = s.port ∧ t.pending = s.pending ∧
    ¬ t.fd.HcntLive ∧ ¬ t.fd.CmdLive ∧ ¬ t.fd.LenLowLive ∧ ¬ t.fd.LenHighLive ∧ ¬ t.fd.PcntLive ∧ ¬ t.fd.TcntLive ∧
    (∀ a, ¬ t.fd.PayLive a) ∧ (∀ i, ¬ t.fd.TrlLive t.cfg i)) ∧
  (∀ s t : State, exec .clear s = .next t →
    t.cfg = s.cfg ∧ t.fd = s.fd ∧ t.port = s.port ∧ t.pending = s.pending ∧
    (∀ i, ¬ t.mv.WinLive i) ∧ (∀ k, ¬ t.mv.LastLive k))

/-- R100 and R88: a byte is taken through exactly the row its position selects; a row of another position is refused,
which is the model's choice (log entry 8). -/
def Obligations.ByteRowsAreFeedByPosition : Prop :=
  (∀ (s : State) (b : Byte), exec (.feed b) s = exec (decodeByte s.cfg s.fd.slot b) s ∧
    (decodeByte s.cfg s.fd.slot b).slot? = some s.fd.slot) ∧
  (∀ (s : State) (i : Instr) (k : ByteSlot), i.slot? = some k → k ≠ s.fd.slot →
    exec i s = .refused .byteRowNotSelected)

/-! ## The Frame Decoder over byte sequences -/

/-- R112, on the machine that fetches the operations: the bytes of a well-formed frame, fed from WAIT_START, return
nothing but the frame, on the last byte, and leave the decoder in WAIT_START. -/
def Obligations.WellFormedFrameIsReturned : Prop :=
  ∀ (s : State) (cmd : Byte) (payload trailer : List Byte) (rest : List Stimulus),
    s.cfg.Legal → s.fd.st = .waitStart → payload.length ≤ 65535 →
    trailer.length = s.cfg.trailerLen →
    s.pending = Trace.frame s.cfg cmd payload trailer ++ rest →
    ∃ t : State, Host.Core.run Sys2Proof.core (s.cfg.frameOverhead + payload.length) s = .next t ∧
      t.events = .feed (some ⟨cmd, BitVec.ofNat 16 payload.length, payload, trailer, s.cfg.endMark⟩) ::
        (List.replicate (s.cfg.frameOverhead - 1 + payload.length) (.feed none) ++ s.events) ∧
      t.fd.st = .waitStart ∧ t.mv = s.mv ∧ t.cfg = s.cfg ∧ t.pending = rest

/-- R113: bytes none of which is HEAD return nothing and leave the state as it was. -/
def Obligations.NoHeadNoFrame : Prop :=
  ∀ (s : State) (bs : List Byte), s.fd.st = .waitStart → (∀ b ∈ bs, b ≠ s.cfg.head) →
    feedAll s bs = .next { s with events := List.replicate bs.length (.feed none) ++ s.events }

/-- R114: in TERMINATOR bytes that are not END are dropped however many they are; END then returns the frame held before
them, and `reset` returns nothing. -/
def Obligations.StuckTerminatorHoldsFrame : Prop :=
  ∀ (s : State) (bs : List Byte), s.fd.st = .terminator → (∀ b ∈ bs, b ≠ s.cfg.endMark) →
    ∃ t, feedAll s bs = .next t ∧ t.fd = s.fd ∧ framesIn t.events = framesIn s.events ∧
      (∃ u, exec (.feed s.cfg.endMark) t = .next u ∧ u.fd.st = .waitStart ∧
        framesIn u.events = heldFrame s.cfg s.fd :: framesIn s.events) ∧
      (∃ u, exec .reset t = .next u ∧ u.fd.st = .waitStart ∧ framesIn u.events = framesIn s.events)

/-- R115: a frame returned to bytes fed from WAIT_START is read off the last of them, `HEAD c lo hi P T X END` with X free
of END; the bytes before these leave the decoder in WAIT_START. -/
def Obligations.ReturnedFrameIsWhatWasFed : Prop :=
  ∀ (s t : State) (bs : List Byte) (f : Frame), s.cfg.Legal → s.fd.st = .waitStart → bs ≠ [] → feedAll s bs = .next t →
    t.events.head? = some (.feed (some f)) →
    ∃ (u : State) (before : List Byte) (c lo hi : Byte) (p tr x : List Byte),
      bs = before ++ ([s.cfg.head, c, lo, hi] ++ p ++ tr ++ x ++ [s.cfg.endMark]) ∧
      feedAll s before = .next u ∧ u.fd.st = .waitStart ∧
      p.length = lo.toNat + 256 * hi.toNat ∧ tr.length = s.cfg.trailerLen ∧ s.cfg.endMark ∉ x ∧
      f = ⟨c, U16.make hi lo, p, tr, s.cfg.endMark⟩

/-- R119: feeding two sequences in turn is feeding them as one; the frames returned are no more than the END bytes fed,
and from WAIT_START each takes at least nine bytes, with the document's TRAILER_LEN. -/
def Obligations.ChunkingAndFrameCount : Prop :=
  (∀ (s t : State) (bs cs : List Byte), feedAll s bs = .next t → feedAll s (bs ++ cs) = feedAll t cs) ∧
  (∀ (s t : State) (bs : List Byte), feedAll s bs = .next t →
    (framesIn t.events).length ≤ (framesIn s.events).length + bs.count s.cfg.endMark ∧
    (s.cfg.Legal → s.fd.st = .waitStart →
      s.cfg.frameOverhead * (framesIn t.events).length ≤ s.cfg.frameOverhead * (framesIn s.events).length + bs.length)) ∧
  Config.document.frameOverhead = 9

/-- The bytes of `feedn` (R87), fetched and performed step by step, do what feeding them does. -/
def Obligations.FedBytesAreSteps : Prop :=
  ∀ (s t : State) (bs : List Byte) (rest : List Stimulus), s.cfg.Legal →
    s.pending = Trace.feedn bs ++ rest → feedAll s bs = .next t →
    Host.Core.run Sys2Proof.core bs.length s = .next (t.setPending rest)

/-- R31: the register view and the tagged-union view denote the same machine. -/
def Obligations.RegistersRefineTaggedUnion : Prop :=
  (∀ (s : State) (b : Byte), s.cfg.Legal → s.fd.Inv s.cfg →
    ∃ t r, exec (.feed b) s = .next t ∧ t.events = .feed r :: s.events ∧
      (t.fd.view t.cfg, r) = (s.fd.view s.cfg).feed s.cfg b) ∧
  (∀ s : State, ∃ t, exec .reset s = .next t ∧ t.fd.view t.cfg = .waitStart) ∧
  (∀ c : Config, (State.resetFor c).fd.view c = .waitStart)

/-- R29: no rule reads a void register. Two decoders that agree on what is live return the same results to the same
bytes and agree on what is live after them. -/
def Obligations.VoidRegistersAreUnobservable : Prop :=
  ∀ (s t s' : State) (bs : List Byte), s.cfg = t.cfg → s.cfg.Legal → s.fd.Inv s.cfg → t.fd.Inv t.cfg →
    s.fd.view s.cfg = t.fd.view t.cfg → feedAll s bs = .next s' →
    ∃ (t' : State) (es : List Event), feedAll t bs = .next t' ∧ t'.fd.view t'.cfg = s'.fd.view s'.cfg ∧
      s'.events = es ++ s.events ∧ t'.events = es ++ t.events

/-- R116: two decoders at the same position are at the same position after the same byte, whatever their command,
payload and trailer hold. A position is the state and the counters and length bytes live in it (R29). -/
def Obligations.FlowIgnoresContent : Prop :=
  ∀ (s t s' : State) (b : Byte), s.cfg = t.cfg → s.fd.SamePosition t.fd → exec (.feed b) s = .next s' →
    ∃ t', exec (.feed b) t = .next t' ∧ s'.fd.SamePosition t'.fd

/-- R32 and R189: of all instructions only `reset` and the emitting END take a frame in progress back to WAIT_START. -/
def Obligations.OnlyResetOrEndLeavesFrame : Prop :=
  ∀ (i : Instr) (s t : State), exec i s = .next t → s.fd.st ≠ .waitStart → t.fd.st = .waitStart →
    i = .reset ∨ (s.fd.st = .terminator ∧ (i = .feed s.cfg.endMark ∨ i = .feedTerminatorEnd))

/-- R111: `feed` returns the held frame exactly when END is fed in TERMINATOR, and `None` otherwise; of all instructions
none but that `feed`, or its BYTE row, returns a frame. -/
def Obligations.OnlyEndReturnsFrame : Prop :=
  ∀ (i : Instr) (s t : State), exec i s = .next t →
    (∀ b, i = .feed b → t.events =
      .feed (if s.fd.st = .terminator ∧ b = s.cfg.endMark then some (heldFrame s.cfg s.fd) else none) :: s.events) ∧
    framesIn t.events =
      (if s.fd.st = .terminator ∧ (i = .feed s.cfg.endMark ∨ i = .feedTerminatorEnd) then [heldFrame s.cfg s.fd] else []) ++
        framesIn s.events

/-! ## The Signal Extractor -/

/-- R131 and R76, with the document's stride constants: the candidates of a classification frame. -/
def Obligations.ClassificationCandidates : Prop :=
  ∀ (s : State) (f : Frame), s.cfg.clsFirst = 1 → s.cfg.clsStride = 2 →
    f.command = s.cfg.cmdClassification → f.payload.length = f.length.toNat →
    exec (.extractClassification f) s = .next (s.after s.fd s.mv (.extract
      ((List.range ((f.length.toNat - 1) / 2)).map fun r =>
        ⟨f.payload.getD (1 + 2 * r) 0, f.payload.getD (2 + 2 * r) 0, .classification⟩)))

/-- R132 and R77, with the document's stride constants: the candidates of a detection frame. -/
def Obligations.DetectionCandidates : Prop :=
  ∀ (s : State) (f : Frame), s.cfg.detFirst = 1 → s.cfg.detStride = 6 → s.cfg.detConfOff = 5 →
    f.command = s.cfg.cmdDetection → f.payload.length = f.length.toNat →
    exec (.extractDetection f) s = .next (s.after s.fd s.mv (.extract
      ((List.range ((f.length.toNat - 1) / 6)).map fun r =>
        ⟨f.payload.getD (1 + 6 * r) 0, f.payload.getD (6 + 6 * r) 0, .detection⟩)))

/-- R133 and R134: a frame of command 0 or of a reserved command gives no candidates, whatever its payload. -/
def Obligations.UninterpretedCommandsYieldNothing : Prop :=
  ∀ (s : State) (f : Frame),
    (f.command = s.cfg.cmdKeypoint → exec (.extractKeypoint f) s = .next (s.after s.fd s.mv (.extract []))) ∧
    (s.cfg.Reserved f.command → exec (.extractReserved f) s = .next (s.after s.fd s.mv (.extract [])))

/-- R130: the row that a frame's command selects gives the candidates of `extract`, on every frame; a row of another
command is refused, which is the model's choice (log entry 9). -/
def Obligations.ExtractIsTotalOnFrames : Prop :=
  (∀ (s : State) (f : Frame),
    exec (decodeFrame s.cfg f) s = .next (s.after s.fd s.mv (.extract (extract s.cfg f)))) ∧
  (∀ (s : State) (f : Frame), s.cfg.Legal →
    ∀ i ∈ [Instr.extractKeypoint f, .extractClassification f, .extractDetection f, .extractReserved f],
      i ≠ decodeFrame s.cfg f → exec i s = .refused .frameRowNotSelected)

/-- R131, R132, R79: the type byte, the bounding box and what follows the last record make no difference. -/
def Obligations.ExtractIgnoresUnreadBytes : Prop :=
  ∀ (s : State) (f g : Frame), s.cfg.clsFirst = 1 → s.cfg.clsStride = 2 →
    s.cfg.detFirst = 1 → s.cfg.detStride = 6 → s.cfg.detConfOff = 5 →
    f.payload.length = f.length.toNat → g.payload.length = g.length.toNat →
    f.command = g.command → f.length = g.length →
    (f.command = s.cfg.cmdClassification → ∀ r, 2 + 2 * r < f.length.toNat →
      f.payload[1 + 2 * r]? = g.payload[1 + 2 * r]? ∧ f.payload[2 + 2 * r]? = g.payload[2 + 2 * r]?) →
    (f.command = s.cfg.cmdDetection → ∀ r, 6 + 6 * r < f.length.toNat →
      f.payload[1 + 6 * r]? = g.payload[1 + 6 * r]? ∧ f.payload[6 + 6 * r]? = g.payload[6 + 6 * r]?) →
    exec (decodeFrame s.cfg f) s = exec (decodeFrame s.cfg g) s

/-- R86: the trace line `extract` gives the candidates of the frame that the nearest preceding `feed` returned; without
one it is refused, which is the model's choice (log entry 9). -/
def Obligations.TraceExtractTakesReturnedFrame : Prop :=
  ∀ (s : State) (rest : List Stimulus), s.cfg.Legal → s.pending = .op .extractReturned :: rest →
    (∀ (r : Option Frame) (later earlier : List Event), s.events = later ++ .feed r :: earlier →
      (∀ e ∈ later, ∀ q, e ≠ .feed q) →
      (∀ f, r = some f →
        step s = .next ((s.after s.fd s.mv (.extract (extract s.cfg f))).setPending rest)) ∧
      (r = none → step s = .refused (.undecodable .noFrameReturned))) ∧
    ((∀ e ∈ s.events, ∀ q, e ≠ .feed q) → step s = .refused (.undecodable .noFrameReturned))

/-! ## The smoother, rule by rule -/

/-- R155: an id that is not valid is ignored, the sentinel in every legal configuration. -/
def Obligations.InvalidSampleIgnored : Prop :=
  ∀ (s : State),
    (∀ id, s.cfg.numIds ≤ id.toNat → exec (.sample id) s = .next (s.after s.fd s.mv (.sample none))) ∧
    (s.cfg.Legal → exec (.sample s.cfg.sentinel) s = .next (s.after s.fd s.mv (.sample none)) ∧
      exec (.sample 255) s = .next (s.after s.fd s.mv (.sample none)))

/-- R156: a valid id presented to a full window is dropped without a result. -/
def Obligations.FullWindowDropsSample : Prop :=
  ∀ (s : State) (id : Byte), id.toNat < s.cfg.numIds → s.mv.wlen = s.cfg.windowCap →
    exec (.sample id) s = .next (s.after s.fd s.mv (.sample none))

/-- R157: an accepted sample is stored, counted and made the last occurrence of its id; the one that fills the window
returns the vote of the window it leaves, a signal, and at port level `res_valid` is raised with it. -/
def Obligations.SampleAccepted : Prop :=
  ∀ (s : State) (id : Byte), id.toNat < s.cfg.numIds → s.mv.wlen < s.cfg.windowCap →
    ∃ mv' r, exec (.sample id) s = .next (s.after s.fd mv' (.sample r)) ∧
      mv'.wlen = s.mv.wlen + 1 ∧
      Memory.read mv'.win s.mv.wlen = id ∧
      (∀ a, a < s.mv.wlen → Memory.read mv'.win a = Memory.read s.mv.win a) ∧
      Counters.read mv'.cnt id.toNat = Counters.read s.mv.cnt id.toNat + 1 ∧
      Counters.read mv'.last id.toNat = s.mv.wlen ∧
      (∀ k, k < s.cfg.numIds → k ≠ id.toNat → Counters.read mv'.cnt k = Counters.read s.mv.cnt k ∧
        (s.mv.LastLive k → Counters.read mv'.last k = Counters.read s.mv.last k)) ∧
      (s.mv.wlen + 1 = s.cfg.windowCap → r = some (vote s.cfg mv')) ∧
      (s.mv.wlen + 1 ≠ s.cfg.windowCap → r = none) ∧ r ≠ some .noSignal ∧
      mvEmpty (s.after s.fd mv' (.sample r)) = false ∧
      (mvFull (s.after s.fd mv' (.sample r)) = true ↔ s.mv.wlen + 1 = s.cfg.windowCap) ∧
      (∃ t, clockEdge false (OpWord.make 0 0) (OpWord.make 1 id) s = .next t ∧ t.port.res = r)

/-- R158: `evaluate` returns the vote, no signal on an empty window, and changes nothing; at port level `res_valid` is
raised with it. -/
def Obligations.EvaluateAnswersVote : Prop :=
  ∀ (s : State), exec .evaluate s = .next (s.after s.fd s.mv (.evaluate (vote s.cfg s.mv))) ∧
    (s.mv.wlen = 0 → vote s.cfg s.mv = .noSignal) ∧
    ∃ t, clockEdge false (OpWord.make 0 0) (OpWord.make 2 0) s = .next t ∧ t.port.res = some (vote s.cfg s.mv)

/-- R159: `clear` empties the window and every counter; on an empty window it changes nothing. -/
def Obligations.ClearEmptiesWindow : Prop :=
  ∀ (s : State), ∃ mv', exec .clear s = .next (s.after s.fd mv' .clear) ∧
    mv'.wlen = 0 ∧ (∀ k, k < s.cfg.numIds → Counters.read mv'.cnt k = 0) ∧ mv'.window = [] ∧
    (s.mv.Inv s.cfg → s.mv.wlen = 0 → mv' = s.mv) ∧
    mvLen (s.after s.fd mv' .clear) = 0 ∧ mvEmpty (s.after s.fd mv' .clear) = true ∧
    (1 ≤ s.cfg.windowCap → mvFull (s.after s.fd mv' .clear) = false)

/-- R151: an empty window resolves to no signal; otherwise the vote is an id with the highest count, and of those the one
whose last occurrence is greatest. -/
def Obligations.VoteIsHighestThenMostRecent : Prop :=
  ∀ (c : Config) (mv : Mv), c.Legal → mv.Inv c →
    (mv.wlen = 0 → vote c mv = .noSignal) ∧
    (mv.wlen ≠ 0 → ∃ k, k < c.numIds ∧ vote c mv = .signal (BitVec.ofNat 8 k) ∧
      (∀ j, j < c.numIds → Counters.read mv.cnt j ≤ Counters.read mv.cnt k) ∧
      (∀ j, j < c.numIds → j ≠ k → Counters.read mv.cnt j = Counters.read mv.cnt k →
        Counters.read mv.last j < Counters.read mv.last k))

/-! ## The smoother over sequences -/

/-- R152: the vote on the counters is the document's function of the window's contents. -/
def Obligations.VoteIsVoteSeqOfWindow : Prop :=
  ∀ (c : Config) (mv : Mv), c.Legal → mv.Inv c → vote c mv = voteSeq mv.window

/-- R152: on a non-empty sequence the result is the one id that every other id occurring in it stands behind, by count
and then by last index; `lastIdx` is the greatest index of an id. -/
def Obligations.VoteSeqIsForemost : Prop :=
  voteSeq [] = .noSignal ∧
  (∀ w : List Byte, w ≠ [] → ∃ k ∈ w, voteSeq w = .signal k ∧ ∀ j ∈ w, j ≠ k → Behind w j k) ∧
  (∀ (w : List Byte) (k : Byte), k ∈ w →
    w[lastIdx w k]? = some k ∧ ∀ i, w[i]? = some k → i ≤ lastIdx w k)

/-- R153(b) and (d): a strict plurality wins wherever it stands, and with every sample distinct the last one wins. -/
def Obligations.PluralityAndDistinctSamples : Prop :=
  (∀ (w : List Byte) (k : Byte), k ∈ w → (∀ j ∈ w, j ≠ k → w.count j < w.count k) → voteSeq w = .signal k) ∧
  (∀ (w : List Byte) (k : Byte), (w ++ [k]).Nodup → voteSeq (w ++ [k]) = .signal k)

/-- R37(d) and (f): the counts add up to the window's length, so none exceeds N, and ids that occur have different last
occurrences. -/
def Obligations.CountsAddUpToWindow : Prop :=
  ∀ (c : Config) (mv : Mv), mv.Inv c →
    ((List.range c.numIds).map (Counters.read mv.cnt)).sum = mv.wlen ∧
    (∀ k, k < c.numIds → Counters.read mv.cnt k ≤ c.windowCap) ∧
    (∀ j k, j < c.numIds → k < c.numIds → j ≠ k → 0 < Counters.read mv.cnt j → 0 < Counters.read mv.cnt k →
      Counters.read mv.last j ≠ Counters.read mv.last k)

/-- R154 to R159: on every reachable state the smoother is a function of the window's contents. -/
def Obligations.SmootherRefinesWindow : Prop :=
  ∀ (s : State), s.cfg.Legal → s.mv.Inv s.cfg →
    (∀ id, ∃ t r, exec (.sample id) s = .next t ∧ t.events = .sample r :: s.events ∧
      (t.mv.window, r) = sampleSeq s.cfg s.mv.window id) ∧
    (∃ t, exec .evaluate s = .next t ∧ t.events = .evaluate (voteSeq s.mv.window) :: s.events ∧
      t.mv.window = s.mv.window) ∧
    (∃ t, exec .clear s = .next t ∧ t.mv.window = [])

/-- R163: after a window is full, and until `clear`, no sample is accepted, no further early decision is reported, and
every `evaluate` returns the same resolution. -/
def Obligations.FullWindowIsFrozen : Prop :=
  ∀ (s : State) (is : List Instr), s.mv.wlen = s.cfg.windowCap →
    (∀ i ∈ is, unitOf i = .mv ∧ i ≠ .clear) →
    ∃ t es, execAll s is = .next t ∧ t.mv = s.mv ∧ t.events = es ++ s.events ∧
      ∀ e ∈ es, e = .sample none ∨ e = .evaluate (vote s.cfg s.mv)

/-! ## The whole machine -/

/-- R62: an `FD` operation and an `MV` operation that are adjacent may be exchanged: the same results and the same final
registers. -/
def Obligations.FdAndMvCommute : Prop :=
  ∀ (i j : Instr) (s a t : State), unitOf i = .fd → unitOf j = .mv → exec i s = .next a → exec j a = .next t →
    ∃ (b u : State) (ei ej : List Event), exec j s = .next b ∧ exec i b = .next u ∧
      a.events = ei ++ s.events ∧ t.events = ej ++ ei ++ s.events ∧
      b.events = ej ++ s.events ∧ u.events = ei ++ ej ++ s.events ∧
      u.fd = t.fd ∧ u.mv = t.mv ∧ u.cfg = t.cfg ∧ u.port = t.port ∧ u.pending = t.pending

/-- R10, R130: an instruction writes only its own unit's registers; `extract` writes none; none writes the configuration,
the port's pulses or what is pending. -/
def Obligations.UnitsKeepToTheirRegisters : Prop :=
  ∀ (i : Instr) (s t : State), exec i s = .next t →
    t.cfg = s.cfg ∧ t.port = s.port ∧ t.pending = s.pending ∧
    (unitOf i ≠ .fd → t.fd = s.fd) ∧ (unitOf i ≠ .mv → t.mv = s.mv)

/-- R39, R214: no step changes the configuration. -/
def Obligations.ConfigurationNeverChanges : Prop :=
  ∀ (s t : State), step s = .next t → t.cfg = s.cfg

/-- R30 and R37, with the canonical form of every memory, the hand-off (R63) and the form of every result: every step
keeps the invariant. -/
def Obligations.StepKeepsInvariant : Prop :=
  ∀ (s t : State), s.Inv → step s = .next t → t.Inv

/-- The state after reset meets the invariant in every legal configuration, the document's among them. -/
def Obligations.ResetMeetsInvariant : Prop :=
  (∀ c : Config, c.Legal → (State.resetFor c).Inv) ∧ State.reset.Inv

/-- R180: no instruction and no step faults, in any state. In a state that meets the invariant no step is refused for its
registers either, and every operation that decodes to an instruction other than the reserved word completes. -/
def Obligations.OperationsAreTotal : Prop :=
  (∀ (i : Instr) (s : State) (r : Fault), exec i s ≠ .fault r ∧ step s ≠ .fault r) ∧
  (∀ (s : State), s.Inv →
    step s ≠ .refused .unreachableState ∧
    (∀ (i : Issue) (rest : List Stimulus) (instr : Instr), s.pending = .op i :: rest → decodeIn s i = .ok instr →
      instr ≠ .fdReserved → ∃ t, step s = .next t))

/-- A step performs the instruction that the next issue stands for; an issue that stands for none, and a configuration
outside its domains, are refused by name. -/
def Obligations.StepRunsDecodedInstruction : Prop :=
  ∀ (s : State) (i : Issue) (rest : List Stimulus), s.pending = .op i :: rest →
    (s.cfg.Legal →
      (∀ instr, decodeIn s i = .ok instr → step s = exec instr (s.setPending rest)) ∧
      (∀ e, decodeIn s i = .error e → step s = .refused (.undecodable e))) ∧
    (¬ s.cfg.Legal → step s = .refused .illegalConfiguration)

/-- R227: with no operation issued nothing happens, for ever. -/
def Obligations.NothingIssuedNothingHappens : Prop :=
  ∀ (s : State) (n : Nat), s.pending = [] → Host.Core.run Sys2Proof.core n s = .next s

/-- R210: the hardware reset leaves the live registers as `reset` and then `clear` do, and `rst` = 1 at an edge performs
it whatever the operation fields hold. Nothing is said of the void registers (R42). -/
def Obligations.HardwareResetIsResetThenClear : Prop :=
  ∀ (s : State), s.cfg.Legal →
    ∃ a b t : State, exec .reset s = .next a ∧ exec .clear a = .next b ∧ perform .hardwareReset s = .next t ∧
      t.cfg = s.cfg ∧ b.cfg = s.cfg ∧ t.fd.view t.cfg = b.fd.view b.cfg ∧ t.mv.window = b.mv.window ∧
      (∀ k, k < s.cfg.numIds → Counters.read t.mv.cnt k = Counters.read b.mv.cnt k) ∧
      FdAfterReset t ∧ MvAfterReset t ∧
      (∀ (rest : List Stimulus) (fdOp mvOp : OpWord), s.pending = .edge true fdOp mvOp :: rest →
        ∃ u, step s = .next u ∧ u.cfg = s.cfg ∧ FdAfterReset u ∧ MvAfterReset u ∧
          u.port.frameValid = false ∧ u.port.res = none)

/-- R213: no state survives the hardware reset. Every instruction keeps two states that agree on everything live in
agreement, with the same result; the hardware reset of a state agrees with the state after power-on; so whatever is done
after the one has the results it has after the other, and leaves the same live registers. -/
def Obligations.NothingSurvivesHardwareReset : Prop :=
  (∀ (i : Instr) (s t s' : State), SameLive s t → exec i s = .next s' →
    ∃ (t' : State) (es : List Event), exec i t = .next t' ∧ SameLive s' t' ∧
      s'.events = es ++ s.events ∧ t'.events = es ++ t.events) ∧
  (∀ s : State, s.Inv → SameLive s.hardwareReset (State.resetFor s.cfg)) ∧
  (∀ (s t : State) (is : List Instr), s.Inv → execAll s.hardwareReset is = .next t →
    ∃ (u : State) (es : List Event), execAll (State.resetFor s.cfg) is = .next u ∧
      t.events = es ++ s.hardwareReset.events ∧ u.events = es ∧
      t.fd.view t.cfg = u.fd.view u.cfg ∧ t.mv.window = u.mv.window)

/-- R42: what the hardware reset (at power-on and later), `reset` and `clear` leave in the registers they cover and on the
status outputs, with nothing live in the void ones, in every configuration with N ≥ 1. `reset` does not touch `MV`, nor
`clear` `FD`. -/
def Obligations.ResetValues : Prop :=
  (∀ (c : Config), 1 ≤ c.windowCap → FdAfterReset (State.resetFor c) ∧ MvAfterReset (State.resetFor c)) ∧
  (∀ (s : State), 1 ≤ s.cfg.windowCap →
    (∃ t, perform .hardwareReset s = .next t ∧ t.cfg = s.cfg ∧ FdAfterReset t ∧ MvAfterReset t) ∧
    (∃ t, exec .reset s = .next t ∧ t.cfg = s.cfg ∧ FdAfterReset t ∧ t.mv = s.mv) ∧
    (∃ t, exec .clear s = .next t ∧ t.cfg = s.cfg ∧ MvAfterReset t ∧ t.fd = s.fd))

/-! ## The port binding -/

/-- R85: at an edge without `rst` both operations are performed, and the pulses say which returned a frame and which a
resolution. -/
def Obligations.ClockEdgePerformsBoth : Prop :=
  ∀ (s a b : State) (fdOp mvOp : OpWord),
    exec (decodeFdWord fdOp) s = .next a → exec (decodeMvWord mvOp) a = .next b →
    ∃ p : Port, clockEdge false fdOp mvOp s = .next (b.setPort p) ∧
      (p.frameValid = true ↔ ∃ f, a.events = .feed (some f) :: s.events) ∧
      (∀ r, p.res = some r ↔ b.events = .evaluate r :: a.events ∨ b.events = .sample (some r) :: a.events)

/-- R63 and R85: while the frame is in place the outputs show the frame that the nearest `feed` returned, byte for byte;
it is in place right after that `feed`, and stays so under `fd_nop`, `extract` and every `MV` operation. -/
def Obligations.FrameStaysInPlace : Prop :=
  (∀ (s : State), s.Inv → frameInPlace s.events = true →
    ∃ f, returnedFrame s.events = some f ∧
      (portOut s).frameCmd = f.command ∧ (portOut s).frameLen = f.length ∧ (portOut s).frameTrl = f.trailer ∧
      ∀ i, i < f.length.toNat → f.payload[i]? = some (payRdata s (BitVec.ofNat 16 i))) ∧
  (∀ (s t : State), exec (.feed s.cfg.endMark) s = .next t → s.fd.st = .terminator → frameInPlace t.events = true) ∧
  (∀ (i : Instr) (s t : State), (unitOf i ≠ .fd ∨ i = .fdNop) → exec i s = .next t → frameInPlace s.events = true →
    frameInPlace t.events = true ∧ t.fd = s.fd ∧ returnedFrame t.events = returnedFrame s.events)

/-! ## Encoding -/

/-- Decoding what encodes a well-formed instruction gives it back, every operand at every value (R82, R83, R70, R88). -/
def Obligations.DecodeOfEncode : Prop :=
  ∀ (c : Config) (slot : ByteSlot) (returned : Option Frame) (i : Instr), c.Legal → i.WellFormed c →
    (∀ k, i.slot? = some k → k = slot) → decode c slot returned (encode c i) = .ok i

/-- R70, R74, R80: a byte string is read as a frame exactly when it is that frame's bytes on the wire, 9 + LEN of
them; no byte is dropped and none inside is special. -/
def Obligations.ParseFrameIsExact : Prop :=
  (∀ (c : Config) (bs : List Byte) (f : Frame), parseFrame c bs = .ok f ↔ (f.WellFormed c ∧ bs = f.wire c)) ∧
  (∀ (c : Config) (f : Frame), f.WellFormed c → c.headerLen = 3 →
    (f.wire c).length = c.frameOverhead + f.length.toNat) ∧
  Config.document.frameOverhead = 9

/-- R82 and R83: the operation is bits 9:8 and the operand bits 7:0; where the operation has no operand those bits are
ignored; the reserved word is refused. -/
def Obligations.OperandBitsOfOperationWords : Prop :=
  ∀ (d : Byte),
    decodeFdWord (OpWord.make 0 d) = .fdNop ∧ decodeFdWord (OpWord.make 1 d) = .feed d ∧
    decodeFdWord (OpWord.make 2 d) = .reset ∧ decodeFdWord (OpWord.make 3 d) = .fdReserved ∧
    decodeMvWord (OpWord.make 0 d) = .mvNop ∧ decodeMvWord (OpWord.make 1 d) = .sample d ∧
    decodeMvWord (OpWord.make 2 d) = .evaluate ∧ decodeMvWord (OpWord.make 3 d) = .clear ∧
    (∀ o, (OpWord.make o d).toNat = 256 * o.toNat + d.toNat) ∧
    (∀ s, exec (decodeFdWord (OpWord.make 3 d)) s = .refused .reservedFdOp)

/-- R86's words, written out, stand for the operations it writes beside them; the rows of the two markers and the FRAME
rows of the table read as the table says. -/
def Obligations.SpecWordsDecode : Prop :=
  decodeFdWord 0b0111111101 = .feed 0xFD ∧ decodeFdWord 0b1000000000 = .reset ∧
  decodeFdWord 0b0000000000 = .fdNop ∧ decodeMvWord 0b0100000011 = .sample 3 ∧
  decodeMvWord 0b1000000000 = .evaluate ∧ decodeMvWord 0b1100000000 = .clear ∧ decodeMvWord 0 = .mvNop ∧
  decodeByte .document .waitStart 0xFD = .feedWaitStartHead ∧
  decodeByte .document .terminator 0xED = .feedTerminatorEnd ∧
  (parseFrame .document [0xFD, 0x01, 0x02, 0x00, 0xFD, 0xED, 0xAA, 0xBB, 0xCC, 0xDD, 0xED]).map
      (decodeFrame .document) =
    .ok (.extractClassification ⟨1, 2, [0xFD, 0xED], [0xAA, 0xBB, 0xCC, 0xDD], 0xED⟩)
end

