-- ==== Sys2Proof/Laws/Bits.lean ====
section
/-!
SUPPORT. Bit fields and byte order: each field of a word made from fields is that field.
-/

namespace Sys2Proof

theorem OpWord.make_toNat (o : BitVec 2) (b : Byte) : (OpWord.make o b).toNat = b.toNat + 256 * o.toNat := by
  have := b.isLt
  show (o.toNat <<< 8 ||| b.toNat) = _
  rw [← Nat.shiftLeft_add_eq_or_of_lt this, Nat.shiftLeft_eq]
  omega

/-- R73: LEN = LEN_LO + 256 × LEN_HI. -/
theorem U16.make_toNat (hi lo : Byte) : (U16.make hi lo).toNat = lo.toNat + 256 * hi.toNat := by
  have := lo.isLt
  show (hi.toNat <<< 8 ||| lo.toNat) = _
  rw [← Nat.shiftLeft_add_eq_or_of_lt this, Nat.shiftLeft_eq]
  omega

theorem OpWord.op_toNat (w : OpWord) : (OpWord.op w).toNat = w.toNat / 256 := by
  have := w.isLt
  simp only [OpWord.op, BitVec.extractLsb'_toNat, Nat.shiftRight_eq_div_pow]
  omega

theorem OpWord.operand_toNat (w : OpWord) : (OpWord.operand w).toNat = w.toNat % 256 := by
  simp [OpWord.operand, BitVec.extractLsb'_toNat]

theorem U16.lowByte_toNat (v : U16) : (U16.lowByte v).toNat = v.toNat % 256 := by
  simp [U16.lowByte, BitVec.extractLsb'_toNat]

theorem U16.highByte_toNat (v : U16) : (U16.highByte v).toNat = v.toNat / 256 := by
  have := v.isLt
  simp only [U16.highByte, BitVec.extractLsb'_toNat, Nat.shiftRight_eq_div_pow]
  omega

@[simp] theorem OpWord.op_make (o : BitVec 2) (b : Byte) : OpWord.op (OpWord.make o b) = o := by
  have := b.isLt
  apply BitVec.eq_of_toNat_eq
  rw [OpWord.op_toNat, OpWord.make_toNat]
  omega

@[simp] theorem OpWord.operand_make (o : BitVec 2) (b : Byte) : OpWord.operand (OpWord.make o b) = b := by
  have := b.isLt
  apply BitVec.eq_of_toNat_eq
  rw [OpWord.operand_toNat, OpWord.make_toNat]
  omega

@[simp] theorem U16.lowByte_make (hi lo : Byte) : U16.lowByte (U16.make hi lo) = lo := by
  have := lo.isLt
  apply BitVec.eq_of_toNat_eq
  rw [U16.lowByte_toNat, U16.make_toNat]
  omega

@[simp] theorem U16.highByte_make (hi lo : Byte) : U16.highByte (U16.make hi lo) = hi := by
  have := lo.isLt
  apply BitVec.eq_of_toNat_eq
  rw [U16.highByte_toNat, U16.make_toNat]
  omega

@[simp] theorem U16.make_high_low (v : U16) : U16.make (U16.highByte v) (U16.lowByte v) = v := by
  apply BitVec.eq_of_toNat_eq
  rw [U16.make_toNat, U16.highByte_toNat, U16.lowByte_toNat]
  omega

namespace Machine

@[simp] theorem setLenLow_low (len : U16) (b : Byte) : U16.lowByte (setLenLow len b) = b := by simp [setLenLow]

@[simp] theorem setLenLow_high (len : U16) (b : Byte) : U16.highByte (setLenLow len b) = U16.highByte len := by
  simp [setLenLow]

@[simp] theorem setLenHigh_low (len : U16) (b : Byte) : U16.lowByte (setLenHigh len b) = U16.lowByte len := by
  simp [setLenHigh]

@[simp] theorem setLenHigh_high (len : U16) (b : Byte) : U16.highByte (setLenHigh len b) = b := by simp [setLenHigh]

end Machine

end Sys2Proof
end

