-- ==== Sys2Proof/Laws/State.lean ====
section
/-!
SUPPORT. One lemma per field per update of the state and of the register records, each true by rfl.
-/

namespace Sys2Proof.Machine

@[simp] theorem State.setFd_cfg (s : State) (fd : Fd) : (s.setFd fd).cfg = s.cfg := rfl
@[simp] theorem State.setFd_fd (s : State) (fd : Fd) : (s.setFd fd).fd = fd := rfl
@[simp] theorem State.setFd_mv (s : State) (fd : Fd) : (s.setFd fd).mv = s.mv := rfl
@[simp] theorem State.setFd_port (s : State) (fd : Fd) : (s.setFd fd).port = s.port := rfl
@[simp] theorem State.setFd_pending (s : State) (fd : Fd) : (s.setFd fd).pending = s.pending := rfl
@[simp] theorem State.setFd_events (s : State) (fd : Fd) : (s.setFd fd).events = s.events := rfl

@[simp] theorem State.setMv_cfg (s : State) (mv : Mv) : (s.setMv mv).cfg = s.cfg := rfl
@[simp] theorem State.setMv_fd (s : State) (mv : Mv) : (s.setMv mv).fd = s.fd := rfl
@[simp] theorem State.setMv_mv (s : State) (mv : Mv) : (s.setMv mv).mv = mv := rfl
@[simp] theorem State.setMv_port (s : State) (mv : Mv) : (s.setMv mv).port = s.port := rfl
@[simp] theorem State.setMv_pending (s : State) (mv : Mv) : (s.setMv mv).pending = s.pending := rfl
@[simp] theorem State.setMv_events (s : State) (mv : Mv) : (s.setMv mv).events = s.events := rfl

@[simp] theorem State.setPort_cfg (s : State) (p : Port) : (s.setPort p).cfg = s.cfg := rfl
@[simp] theorem State.setPort_fd (s : State) (p : Port) : (s.setPort p).fd = s.fd := rfl
@[simp] theorem State.setPort_mv (s : State) (p : Port) : (s.setPort p).mv = s.mv := rfl
@[simp] theorem State.setPort_port (s : State) (p : Port) : (s.setPort p).port = p := rfl
@[simp] theorem State.setPort_pending (s : State) (p : Port) : (s.setPort p).pending = s.pending := rfl
@[simp] theorem State.setPort_events (s : State) (p : Port) : (s.setPort p).events = s.events := rfl

@[simp] theorem State.setPending_cfg (s : State) (q : List Stimulus) : (s.setPending q).cfg = s.cfg := rfl
@[simp] theorem State.setPending_fd (s : State) (q : List Stimulus) : (s.setPending q).fd = s.fd := rfl
@[simp] theorem State.setPending_mv (s : State) (q : List Stimulus) : (s.setPending q).mv = s.mv := rfl
@[simp] theorem State.setPending_port (s : State) (q : List Stimulus) : (s.setPending q).port = s.port := rfl
@[simp] theorem State.setPending_pending (s : State) (q : List Stimulus) : (s.setPending q).pending = q := rfl
@[simp] theorem State.setPending_events (s : State) (q : List Stimulus) : (s.setPending q).events = s.events := rfl

@[simp] theorem State.log_cfg (s : State) (e : Event) : (s.log e).cfg = s.cfg := rfl
@[simp] theorem State.log_fd (s : State) (e : Event) : (s.log e).fd = s.fd := rfl
@[simp] theorem State.log_mv (s : State) (e : Event) : (s.log e).mv = s.mv := rfl
@[simp] theorem State.log_port (s : State) (e : Event) : (s.log e).port = s.port := rfl
@[simp] theorem State.log_pending (s : State) (e : Event) : (s.log e).pending = s.pending := rfl
@[simp] theorem State.log_events (s : State) (e : Event) : (s.log e).events = e :: s.events := rfl

@[simp] theorem State.hardwareReset_cfg (s : State) : s.hardwareReset.cfg = s.cfg := rfl
@[simp] theorem State.hardwareReset_fd (s : State) : s.hardwareReset.fd = s.fd.toWaitStart := rfl
@[simp] theorem State.hardwareReset_mv (s : State) : s.hardwareReset.mv = s.mv.emptied := rfl
@[simp] theorem State.hardwareReset_port (s : State) : s.hardwareReset.port = { s.port with frameValid := false, res := none } := rfl
@[simp] theorem State.hardwareReset_pending (s : State) : s.hardwareReset.pending = s.pending := rfl
@[simp] theorem State.hardwareReset_events (s : State) : s.hardwareReset.events = .hardwareReset :: s.events := rfl

@[simp] theorem State.after_cfg (s : State) (fd : Fd) (mv : Mv) (e : Event) : (s.after fd mv e).cfg = s.cfg := rfl
@[simp] theorem State.after_fd (s : State) (fd : Fd) (mv : Mv) (e : Event) : (s.after fd mv e).fd = fd := rfl
@[simp] theorem State.after_mv (s : State) (fd : Fd) (mv : Mv) (e : Event) : (s.after fd mv e).mv = mv := rfl
@[simp] theorem State.after_port (s : State) (fd : Fd) (mv : Mv) (e : Event) : (s.after fd mv e).port = s.port := rfl
@[simp] theorem State.after_pending (s : State) (fd : Fd) (mv : Mv) (e : Event) : (s.after fd mv e).pending = s.pending := rfl
@[simp] theorem State.after_events (s : State) (fd : Fd) (mv : Mv) (e : Event) : (s.after fd mv e).events = e :: s.events := rfl

@[simp] theorem Fd.toWaitStart_st (fd : Fd) : fd.toWaitStart.st = .waitStart := rfl
@[simp] theorem Fd.toWaitStart_hcnt (fd : Fd) : fd.toWaitStart.hcnt = fd.hcnt := rfl
@[simp] theorem Fd.toWaitStart_cmd (fd : Fd) : fd.toWaitStart.cmd = fd.cmd := rfl
@[simp] theorem Fd.toWaitStart_len (fd : Fd) : fd.toWaitStart.len = fd.len := rfl
@[simp] theorem Fd.toWaitStart_pcnt (fd : Fd) : fd.toWaitStart.pcnt = fd.pcnt := rfl
@[simp] theorem Fd.toWaitStart_pay (fd : Fd) : fd.toWaitStart.pay = fd.pay := rfl
@[simp] theorem Fd.toWaitStart_tcnt (fd : Fd) : fd.toWaitStart.tcnt = fd.tcnt := rfl
@[simp] theorem Fd.toWaitStart_trl (fd : Fd) : fd.toWaitStart.trl = fd.trl := rfl

@[simp] theorem Mv.emptied_wlen (mv : Mv) : mv.emptied.wlen = 0 := rfl
@[simp] theorem Mv.emptied_win (mv : Mv) : mv.emptied.win = mv.win := rfl
@[simp] theorem Mv.emptied_cnt (mv : Mv) : mv.emptied.cnt = [] := rfl
@[simp] theorem Mv.emptied_last (mv : Mv) : mv.emptied.last = mv.last := rfl

@[simp] theorem Mv.accept_wlen (mv : Mv) (id : Byte) :
    (mv.accept id).wlen = mv.wlen + 1 := rfl
@[simp] theorem Mv.accept_win (mv : Mv) (id : Byte) :
    (mv.accept id).win = Memory.write mv.win mv.wlen id := rfl
@[simp] theorem Mv.accept_cnt (mv : Mv) (id : Byte) :
    (mv.accept id).cnt = Counters.write mv.cnt id.toNat (Counters.read mv.cnt id.toNat + 1) := rfl
@[simp] theorem Mv.accept_last (mv : Mv) (id : Byte) :
    (mv.accept id).last = Counters.write mv.last id.toNat mv.wlen := rfl

end Sys2Proof.Machine
end

