-- ==== Sys2Proof/Laws/Cells.lean ====
section
/-!
SUPPORT. Cells: reading after writing, and every memory operation keeps the canonical form.
-/

namespace Sys2Proof.Machine

variable {α : Type}

/-! ## Reading after writing -/

theorem Cells.read_put_same (d : α) (a : Nat) (v : α) (m : List (Nat × α)) :
    Cells.read d (Cells.put a v m) a = v := by
  induction m with
  | nil => simp [Cells.put, Cells.read]
  | cons x m ih =>
    obtain ⟨k, w⟩ := x
    rcases Nat.lt_trichotomy a k with h | h | h
    · simp [Cells.put, Cells.read, h]
    · simp [Cells.put, Cells.read, h]
    · have h1 : ¬ a < k := by omega
      have h2 : ¬ a = k := by omega
      have h3 : ¬ k = a := by omega
      simp [Cells.put, Cells.read, h1, h2, h3, ih]

theorem Cells.read_put_other (d : α) {a b : Nat} (hab : b ≠ a) (v : α) (m : List (Nat × α)) :
    Cells.read d (Cells.put a v m) b = Cells.read d m b := by
  induction m with
  | nil => simp [Cells.put, Cells.read, Ne.symm hab]
  | cons x m ih =>
    obtain ⟨k, w⟩ := x
    simp only [Cells.put]
    split
    · simp [Cells.read, Ne.symm hab]
    · split
      · subst k; simp [Cells.read, Ne.symm hab]
      · simp [Cells.read, ih]

theorem Cells.read_drop_same (d : α) (a : Nat) (m : List (Nat × α)) : Cells.read d (Cells.drop a m) a = d := by
  induction m with
  | nil => rfl
  | cons x m ih =>
    obtain ⟨k, w⟩ := x
    simp only [Cells.drop]
    split
    · exact ih
    · rename_i h
      simp [Cells.read, Ne.symm h, ih]

theorem Cells.read_drop_other (d : α) {a b : Nat} (hab : b ≠ a) (m : List (Nat × α)) :
    Cells.read d (Cells.drop a m) b = Cells.read d m b := by
  induction m with
  | nil => rfl
  | cons x m ih =>
    obtain ⟨k, w⟩ := x
    simp only [Cells.drop]
    split
    · subst k; simp [Cells.read, Ne.symm hab, ih]
    · simp [Cells.read, ih]

section
variable [DecidableEq α]

@[simp] theorem Cells.read_write_same (d : α) (m : List (Nat × α)) (a : Nat) (v : α) :
    Cells.read d (Cells.write d m a v) a = v := by
  unfold Cells.write
  split
  · rename_i h; rw [Cells.read_drop_same, h]
  · exact Cells.read_put_same d a v m

theorem Cells.read_write_other (d : α) (m : List (Nat × α)) {a b : Nat} (hab : b ≠ a) (v : α) :
    Cells.read d (Cells.write d m a v) b = Cells.read d m b := by
  unfold Cells.write
  split
  · exact Cells.read_drop_other d hab m
  · exact Cells.read_put_other d hab v m

/-! ## Where the listed cells lie -/

omit [DecidableEq α] in
theorem Cells.mem_put {a : Nat} {v : α} {m : List (Nat × α)} {x : Nat × α} (h : x ∈ Cells.put a v m) :
    x = (a, v) ∨ x ∈ m := by
  induction m with
  | nil => exact .inl (by simpa [Cells.put] using h)
  | cons y m ih =>
    simp only [Cells.put] at h
    split at h
    · simpa using h
    · split at h
      · rcases List.mem_cons.1 h with h | h
        · exact .inl h
        · exact .inr (List.mem_cons_of_mem _ h)
      · rcases List.mem_cons.1 h with h | h
        · exact .inr (by simp [h])
        · exact (ih h).imp_right (List.mem_cons_of_mem _)

omit [DecidableEq α] in
theorem Cells.mem_drop {a : Nat} {m : List (Nat × α)} {x : Nat × α} (h : x ∈ Cells.drop a m) :
    x.1 ≠ a ∧ x ∈ m := by
  induction m with
  | nil => cases h
  | cons y m ih =>
    simp only [Cells.drop] at h
    split at h
    · exact (ih h).imp_right (List.mem_cons_of_mem _)
    · rename_i hne
      rcases List.mem_cons.1 h with h | h
      · subst h; exact ⟨Ne.symm hne, by simp⟩
      · exact (ih h).imp_right (List.mem_cons_of_mem _)

theorem Cells.mem_write {d : α} {m : List (Nat × α)} {a : Nat} {v : α} {x : Nat × α}
    (h : x ∈ Cells.write d m a v) : x = (a, v) ∨ x ∈ m := by
  unfold Cells.write at h
  split at h
  · exact .inr (Cells.mem_drop h).2
  · exact Cells.mem_put h

/-- A write below the bound keeps every listed address below it. -/
theorem Cells.below_write {d : α} {m : List (Nat × α)} {a bound : Nat} (v : α)
    (hm : Cells.below bound m = true) (ha : a < bound) : Cells.below bound (Cells.write d m a v) = true := by
  simp only [Cells.below, List.all_eq_true, decide_eq_true_eq] at hm ⊢
  intro x hx
  rcases Cells.mem_write hx with h | h
  · simpa [h] using ha
  · exact hm x h

/-! ## The canonical form -/

theorem Cells.wf_cons {d : α} {k : Nat} {v : α} {m : List (Nat × α)} :
    Cells.wf d ((k, v) :: m) = true ↔ v ≠ d ∧ (∀ x ∈ m, k < x.1) ∧ Cells.wf d m = true := by
  simp only [Cells.wf, Bool.and_eq_true, decide_eq_true_eq, List.all_eq_true, and_assoc]

theorem Cells.wf_put {d : α} {a : Nat} {v : α} (hv : v ≠ d) {m : List (Nat × α)} (hm : Cells.wf d m = true) :
    Cells.wf d (Cells.put a v m) = true := by
  induction m with
  | nil => simp [Cells.put, Cells.wf, hv]
  | cons x m ih =>
    obtain ⟨k, w⟩ := x
    obtain ⟨hw, hlt, hwf⟩ := Cells.wf_cons.1 hm
    simp only [Cells.put]
    split
    · rename_i h
      refine Cells.wf_cons.2 ⟨hv, fun x hx => ?_, hm⟩
      rcases List.mem_cons.1 hx with rfl | hx
      · exact h
      · exact Nat.lt_trans h (hlt x hx)
    · split
      · rename_i h; subst h; exact Cells.wf_cons.2 ⟨hv, hlt, hwf⟩
      · refine Cells.wf_cons.2 ⟨hw, fun x hx => ?_, ih hwf⟩
        rcases Cells.mem_put hx with rfl | hx
        · show k < a; omega
        · exact hlt x hx

theorem Cells.wf_drop {d : α} (a : Nat) {m : List (Nat × α)} (hm : Cells.wf d m = true) :
    Cells.wf d (Cells.drop a m) = true := by
  induction m with
  | nil => rfl
  | cons x m ih =>
    obtain ⟨k, w⟩ := x
    obtain ⟨hw, hlt, hwf⟩ := Cells.wf_cons.1 hm
    simp only [Cells.drop]
    split
    · exact ih hwf
    · exact Cells.wf_cons.2 ⟨hw, fun x hx => hlt x (Cells.mem_drop hx).2, ih hwf⟩

theorem Cells.wf_write {d : α} (a : Nat) (v : α) {m : List (Nat × α)} (hm : Cells.wf d m = true) :
    Cells.wf d (Cells.write d m a v) = true := by
  unfold Cells.write
  split
  · exact Cells.wf_drop a hm
  · rename_i h; exact Cells.wf_put h hm

end

/-! ## Byte memory and counter files -/

@[simp] theorem Memory.read_nil (a : Nat) : Memory.read [] a = 0 := rfl

@[simp] theorem Memory.read_write_same (m : Memory) (a : Nat) (v : Byte) : (Memory.write m a v).read a = v :=
  Cells.read_write_same _ m a v

theorem Memory.read_write_other (m : Memory) {a b : Nat} (h : b ≠ a) (v : Byte) :
    (Memory.write m a v).read b = Memory.read m b :=
  Cells.read_write_other _ m h v

/-- Every memory operation keeps the canonical form: writing is the only one. -/
theorem Memory.wf_write {m : Memory} (a : Nat) (v : Byte) (hm : m.wf = true) : (Memory.write m a v).wf = true :=
  Cells.wf_write a v hm

@[simp] theorem Counters.read_nil (k : Nat) : Counters.read [] k = 0 := rfl

@[simp] theorem Counters.read_write_same (m : Counters) (k v : Nat) : (Counters.write m k v).read k = v :=
  Cells.read_write_same _ m k v

theorem Counters.read_write_other (m : Counters) {k j : Nat} (h : j ≠ k) (v : Nat) :
    (Counters.write m k v).read j = Counters.read m j :=
  Cells.read_write_other _ m h v

theorem Counters.wf_write {m : Counters} (k v : Nat) (hm : m.wf = true) : (Counters.write m k v).wf = true :=
  Cells.wf_write k v hm

@[simp] theorem Memory.firstBytes_length (m : Memory) (n : Nat) : (Memory.firstBytes m n).length = n := by
  simp [Memory.firstBytes]

@[simp] theorem Memory.firstBytes_zero (m : Memory) : Memory.firstBytes m 0 = [] := rfl

theorem Memory.firstBytes_succ (m : Memory) (n : Nat) :
    Memory.firstBytes m (n + 1) = Memory.firstBytes m n ++ [Memory.read m n] := by
  simp [Memory.firstBytes, List.range_succ]

/-- A write at or beyond the bytes taken changes none of them. -/
theorem Memory.firstBytes_write_beyond (m : Memory) {n a : Nat} (h : n ≤ a) (v : Byte) :
    Memory.firstBytes (Memory.write m a v) n = Memory.firstBytes m n := by
  refine List.map_congr_left fun i hi => Memory.read_write_other m ?_ v
  have := List.mem_range.1 hi
  omega

/-- Writing the byte after the first `n` appends it to them. -/
theorem Memory.firstBytes_write_next (m : Memory) (n : Nat) (v : Byte) :
    Memory.firstBytes (Memory.write m n v) (n + 1) = Memory.firstBytes m n ++ [v] := by
  rw [Memory.firstBytes_succ, Memory.firstBytes_write_beyond m (Nat.le_refl n), Memory.read_write_same]

theorem Memory.firstBytes_getElem (m : Memory) {n i : Nat} (h : i < (Memory.firstBytes m n).length) :
    (Memory.firstBytes m n)[i] = Memory.read m i := by
  simp [Memory.firstBytes]

/-- The memory of the state after reset has the canonical form, in every configuration. -/
theorem State.resetFor_memory_wf (c : Config) :
    (State.resetFor c).fd.pay.wf = true ∧ (State.resetFor c).mv.win.wf = true ∧
      (State.resetFor c).mv.cnt.wf = true ∧ (State.resetFor c).mv.last.wf = true :=
  ⟨rfl, rfl, rfl, rfl⟩

end Sys2Proof.Machine
end

