-- ==== Sys2Proof/Laws/Ops.lean ====
section
/-!
SUPPORT. One lemma per shared operation of the meanings, saying once what it answers, and what each position of the
decoder says of the registers.
-/

namespace Sys2Proof.Machine

/-- Ending a `feed` always completes, with the registers and the result it is given. -/
theorem State.fed_eq_after (s : State) (fd : Fd) (r : Option Frame) : s.fed fd r = .next (s.after fd s.mv (.feed r)) :=
  rfl

theorem State.setFd_log_eq_after (s : State) (fd : Fd) (e : Event) :
    (s.setFd fd).log e = s.after fd s.mv e := rfl

theorem State.setMv_log_eq_after (s : State) (mv : Mv) (e : Event) :
    (s.setMv mv).log e = s.after s.fd mv e := rfl

theorem State.log_eq_after (s : State) (e : Event) : s.log e = s.after s.fd s.mv e := rfl

/-- A BYTE row where the table selects it is the rule it runs. -/
theorem whenSelected_of {p : Prop} [Decidable p] (hp : p) (o : Host.Outcome State Fault Refusal) :
    whenSelected p o = o := if_pos hp

/-- A BYTE row elsewhere is refused by name. -/
theorem whenSelected_of_not {p : Prop} [Decidable p] (hp : ¬ p) (o : Host.Outcome State Fault Refusal) :
    whenSelected p o = .refused .byteRowNotSelected := if_neg hp

/-- If a BYTE row answers a next state, the table selected it and its rule answers that state. -/
theorem whenSelected_next {p : Prop} [Decidable p] {o : Host.Outcome State Fault Refusal} {t : State}
    (h : whenSelected p o = .next t) : p ∧ o = .next t := by
  unfold whenSelected at h
  split at h
  · exact ⟨‹_›, h⟩
  · cases h

/-- If a FRAME row answers a next state, its command selected it and only the candidates were recorded. -/
theorem State.extracted_next {s : State} {p : Prop} [Decidable p] {cs : List Candidate} {t : State}
    (h : s.extracted p cs = .next t) : p ∧ t = s.after s.fd s.mv (.extract cs) := by
  unfold State.extracted at h
  split at h
  · injection h with h; exact ⟨‹_›, h.symm⟩
  · cases h

/-- A payload byte inside the buffer completes. -/
theorem takePayload_inside {s : State} (b : Byte) (h : s.fd.pcnt.toNat < s.cfg.payloadCap) :
    takePayload b s = .next (s.after { s.fd with
      pay := Memory.write s.fd.pay s.fd.pcnt.toNat b
      pcnt := s.fd.pcnt + 1
      st := if s.fd.pcnt.toNat + 1 = s.fd.len.toNat then .trailer else s.fd.st } s.mv (.feed none)) :=
  if_pos h

/-! ## Positions (R32) -/

theorem Fd.slot_waitStart {fd : Fd} : fd.slot = .waitStart ↔ fd.st = .waitStart := by
  unfold Fd.slot; split <;> simp_all; split <;> simp

theorem Fd.slot_payload {fd : Fd} : fd.slot = .payload ↔ fd.st = .payload := by
  unfold Fd.slot; split <;> simp_all; split <;> simp

theorem Fd.slot_trailer {fd : Fd} : fd.slot = .trailer ↔ fd.st = .trailer := by
  unfold Fd.slot; split <;> simp_all; split <;> simp

theorem Fd.slot_terminator {fd : Fd} : fd.slot = .terminator ↔ fd.st = .terminator := by
  unfold Fd.slot; split <;> simp_all; split <;> simp

theorem Fd.slot_command {fd : Fd} : fd.slot = .command ↔ fd.st = .header ∧ fd.hcnt = 0 := by
  unfold Fd.slot; split <;> simp_all; split <;> simp_all

theorem Fd.slot_lenLo {fd : Fd} : fd.slot = .lenLo ↔ fd.st = .header ∧ fd.hcnt = 1 := by
  unfold Fd.slot; split <;> simp_all; split <;> simp_all

theorem Fd.slot_lenHi {fd : Fd} : fd.slot = .lenHi ↔ fd.st = .header ∧ fd.hcnt = 2 := by
  unfold Fd.slot; split <;> simp_all; split <;> simp_all

end Sys2Proof.Machine
end

