-- ==== Sys2Proof/Laws/FrameDecoder.lean ====
section
/-!
SUPPORT. One equation per rule of the decoder, and the rule that `feed` and each BYTE row run at each position.
-/

namespace Sys2Proof.Machine

/-! ## What each rule answers -/

theorem takeHead_eq (s : State) :
    takeHead s = .next (s.after { s.fd with st := .header, hcnt := 0, pcnt := 0, tcnt := 0 } s.mv (.feed none)) := rfl

theorem takeNothing_eq (s : State) : takeNothing s = .next (s.after s.fd s.mv (.feed none)) := rfl

theorem takeCommand_eq (b : Byte) (s : State) :
    takeCommand b s = .next (s.after { s.fd with cmd := b, hcnt := 1 } s.mv (.feed none)) := rfl

theorem takeLenLo_eq (b : Byte) (s : State) :
    takeLenLo b s = .next (s.after { s.fd with len := setLenLow s.fd.len b, hcnt := 2 } s.mv (.feed none)) := rfl

theorem takeLenHi_eq (b : Byte) (s : State) :
    takeLenHi b s = .next (s.after { s.fd with
      len := setLenHigh s.fd.len b
      st := if setLenHigh s.fd.len b = 0 then .trailer else .payload } s.mv (.feed none)) := rfl

theorem takeTrailer_last {s : State} (b : Byte) (h : s.fd.tcnt + 1 = s.cfg.trailerLen) :
    takeTrailer b s = .next (s.after { s.fd with
      trl := Memory.write s.fd.trl s.fd.tcnt b, st := .terminator } s.mv (.feed none)) := if_pos h

theorem takeTrailer_more {s : State} (b : Byte) (h : s.fd.tcnt + 1 < s.cfg.trailerLen) :
    takeTrailer b s = .next (s.after { s.fd with
      trl := Memory.write s.fd.trl s.fd.tcnt b, tcnt := s.fd.tcnt + 1 } s.mv (.feed none)) :=
  (if_neg (Nat.ne_of_lt h)).trans (if_pos (Nat.lt_of_succ_lt h))

/-- A byte whose index is outside the trailer is refused. -/
theorem takeTrailer_outside {s : State} (b : Byte) (h : s.cfg.trailerLen ≤ s.fd.tcnt) :
    takeTrailer b s = .refused .unreachableState :=
  (if_neg (by omega)).trans (if_neg (by omega))

theorem takeEnd_eq (s : State) :
    takeEnd s = .next (s.after s.fd.toWaitStart s.mv (.feed (some (heldFrame s.cfg s.fd)))) := rfl

/-- R104: the completed length. -/
theorem setLenHigh_toNat (len : U16) (b : Byte) :
    (setLenHigh len b).toNat = 256 * b.toNat + len.toNat % 256 := by
  simp only [setLenHigh, U16.make_toNat, U16.lowByte_toNat]; omega

/-! ## Which rule runs (R100) -/

theorem exec_feed_waitStart {s : State} (b : Byte) (h : s.fd.st = .waitStart) :
    exec (.feed b) s = if b = s.cfg.head then takeHead s else takeNothing s := by
  simp [exec, execFeed, Fd.slot, h]

theorem exec_feed_command {s : State} (b : Byte) (h : s.fd.st = .header) (h0 : s.fd.hcnt = 0) :
    exec (.feed b) s = takeCommand b s := by
  simp [exec, execFeed, Fd.slot, h, h0]

theorem exec_feed_lenLo {s : State} (b : Byte) (h : s.fd.st = .header) (h1 : s.fd.hcnt = 1) :
    exec (.feed b) s = takeLenLo b s := by
  simp [exec, execFeed, Fd.slot, h, h1]

theorem exec_feed_lenHi {s : State} (b : Byte) (h : s.fd.st = .header) (h2 : s.fd.hcnt = 2) :
    exec (.feed b) s = takeLenHi b s := by
  simp [exec, execFeed, Fd.slot, h, h2]

theorem exec_feed_payload {s : State} (b : Byte) (h : s.fd.st = .payload) :
    exec (.feed b) s = takePayload b s := by
  simp [exec, execFeed, Fd.slot, h]

theorem exec_feed_trailer {s : State} (b : Byte) (h : s.fd.st = .trailer) :
    exec (.feed b) s = takeTrailer b s := by
  simp [exec, execFeed, Fd.slot, h]

theorem exec_feed_terminator {s : State} (b : Byte) (h : s.fd.st = .terminator) :
    exec (.feed b) s = if b = s.cfg.endMark then takeEnd s else takeNothing s := by
  simp [exec, execFeed, Fd.slot, h]

/-- Whatever `feed` answers as a next state, its registers and its result are all that it changed. -/
theorem exec_feed_next {s t : State} {b : Byte} (h : exec (.feed b) s = .next t) :
    ∃ fd' r, t = s.after fd' s.mv (.feed r) := by
  have take : ∀ {fd r}, s.fed fd r = .next t → ∃ fd' r', t = s.after fd' s.mv (.feed r') := by
    intro fd r h'; injection h' with h'; exact ⟨fd, r, h'.symm⟩
  simp only [exec, execFeed] at h
  split at h
  · split at h <;> exact take h
  · exact take h
  · exact take h
  · exact take h
  · unfold takePayload at h
    split at h
    · exact take h
    · cases h
  · unfold takeTrailer at h
    split at h
    · exact take h
    · split at h
      · exact take h
      · cases h
  · split at h <;> exact take h

end Sys2Proof.Machine
end

