-- ==== Sys2Proof/Laws/PerInstr.lean ====
section
/-!
SUPPORT. The statement made of every instruction as syntax: what stands for it is issued to its own unit (R81 to R84).
-/

namespace Sys2Proof.Laws.IssuedToItsUnit

open Sys2Proof Sys2Proof.Machine

/-- In every configuration the encoding of an `FD` instruction is a word of the FD port or a byte of the stream, that of
an `MV` instruction a word of the MV port, and that of an `SX` instruction a wire frame. -/
def Statement (i : Instr) : Prop :=
  ∀ c : Config,
    match unitOf i, encode c i with
    | .fd, .fdWord _ => i.slot? = none
    | .fd, .byte _ => i.slot? ≠ none
    | .mv, .mvWord _ => True
    | .sx, .frameBytes bs => bs.head? = some c.head
    | _, _ => False

theorem fdNop : Statement .fdNop := fun _ => rfl
theorem feed (b : Byte) : Statement (.feed b) := fun _ => rfl
theorem reset : Statement .reset := fun _ => rfl
theorem fdReserved : Statement .fdReserved := fun _ => rfl
theorem mvNop : Statement .mvNop := fun _ => trivial
theorem sample (id : Byte) : Statement (.sample id) := fun _ => trivial
theorem evaluate : Statement .evaluate := fun _ => trivial
theorem clear : Statement .clear := fun _ => trivial
theorem feedWaitStartHead : Statement .feedWaitStartHead := fun _ h => nomatch h
theorem feedWaitStartOther (b : Byte) : Statement (.feedWaitStartOther b) := fun _ h => nomatch h
theorem feedHeaderCmd (b : Byte) : Statement (.feedHeaderCmd b) := fun _ h => nomatch h
theorem feedHeaderLenLo (b : Byte) : Statement (.feedHeaderLenLo b) := fun _ h => nomatch h
theorem feedHeaderLenHi (b : Byte) : Statement (.feedHeaderLenHi b) := fun _ h => nomatch h
theorem feedPayload (b : Byte) : Statement (.feedPayload b) := fun _ h => nomatch h
theorem feedTrailer (b : Byte) : Statement (.feedTrailer b) := fun _ h => nomatch h
theorem feedTerminatorEnd : Statement .feedTerminatorEnd := fun _ h => nomatch h
theorem feedTerminatorOther (b : Byte) : Statement (.feedTerminatorOther b) := fun _ h => nomatch h
theorem extractKeypoint (f : Frame) : Statement (.extractKeypoint f) := fun _ => rfl
theorem extractClassification (f : Frame) : Statement (.extractClassification f) := fun _ => rfl
theorem extractDetection (f : Frame) : Statement (.extractDetection f) := fun _ => rfl
theorem extractReserved (f : Frame) : Statement (.extractReserved f) := fun _ => rfl

end Sys2Proof.Laws.IssuedToItsUnit
end

