-- ==== Sys2Proof/Laws/Run.lean ====
section
/-!
SUPPORT. Runs: one more step of the machine behind the host's interface, and runs of instructions put together.
-/

namespace Sys2Proof.Machine

/-- A run of one more step goes on from the state the step answers. -/
theorem run_succ {s t : State} (h : step s = .next t) (n : Nat) :
    Host.Core.run Sys2Proof.core (n + 1) s = Host.Core.run Sys2Proof.core n t := by
  have h' : Sys2Proof.core.step s = .next t := h
  simp only [Host.Core.run, h']

theorem execAll_cons {s t : State} {i : Instr} (h : exec i s = .next t) (is : List Instr) :
    execAll s (i :: is) = execAll t is := by
  simp only [execAll, h]

/-- Instructions performed in two parts are performed as one list. -/
theorem execAll_append {s t : State} {is : List Instr} (h : execAll s is = .next t) (js : List Instr) :
    execAll s (is ++ js) = execAll t js := by
  induction is generalizing s with
  | nil => injection h with h; subst h; rfl
  | cons i is ih =>
    simp only [execAll, List.cons_append] at h ⊢
    split at h
    · exact ih h
    · next hx => exact absurd h (hx t)

/-- If a list of instructions completes, so does its first one. -/
theorem execAll_cons_next {s t : State} {i : Instr} {is : List Instr} (h : execAll s (i :: is) = .next t) :
    ∃ u, exec i s = .next u ∧ execAll u is = .next t := by
  simp only [execAll] at h
  split at h
  · next u hu => exact ⟨u, hu, h⟩
  · next hx => exact absurd h (hx t)

end Sys2Proof.Machine
end

