-- ==== Sys2Proof/Tests/Slice0.lean ====
section
/-!
SUPPORT. Tests with expected values from the spec (95_test_vectors.md and the examples inside the rules), each of one
step, and a witness for the hypotheses of every statement that has some.
-/

namespace Sys2Proof.Tests

open Sys2Proof Sys2Proof.Machine

/-! ## Small states -/

/-- N = 4 and K = 3, the parameters of program P3. -/
def small : Config := { windowCap := 4, numIds := 3 }

/-- The registers of a decoder collecting the frame of V-FD-2. -/
def fdIn (st : FdSt) (hcnt : Fin 3) (len pcnt : U16) (tcnt : Nat) : Fd :=
  { st := st, hcnt := hcnt, cmd := 1, len := len, pcnt := pcnt, pay := [(1, 3), (2, 0x50), (3, 7), (4, 0x20)],
    tcnt := tcnt, trl := [(0, 0xAA), (1, 0xBB), (2, 0xCC), (3, 0xDD)] }

/-- The decoder just before the end marker of V-FD-2. -/
def fdHeld : Fd := fdIn .terminator 2 5 5 3

/-- The frame of V-FD-2. -/
def frameA : Frame := ⟨1, 5, [0x00, 0x03, 0x50, 0x07, 0x20], [0xAA, 0xBB, 0xCC, 0xDD], 0xED⟩

/-- A frame of some command with the payload of V-SX-7. -/
def frameOf (cmd : Byte) : Frame := ⟨cmd, 7, [0x00, 0x10, 0x11, 0x12, 0x13, 0x14, 0x15], [0, 0, 0, 0], 0xED⟩

/-- The window [0, 0, 1] of P3 after its step 5. -/
def mv001 : Mv := { wlen := 3, win := [(2, 1)], cnt := [(0, 2), (1, 1)], last := [(0, 1), (1, 2)] }

/-- The window [0, 0, 1, 1] of P3 after its step 7. -/
def mv0011 : Mv := { wlen := 4, win := [(2, 1), (3, 1)], cnt := [(0, 2), (1, 2)], last := [(0, 1), (1, 3)] }

/-- A state with given registers. -/
def stateOf (fd : Fd) (mv : Mv) : State := ((State.resetFor small).setFd fd).setMv mv

/-- A state with the frame of V-FD-2 still in place. -/
def handed : State := { stateOf fdHeld.toWaitStart mv001 with events := [.feed (some frameA)] }

/-- The state an instruction answers, if it answers one. -/
def next? (o : Host.Outcome State Fault Refusal) : Option State :=
  match o with
  | .next t => some t
  | _ => none

/-- The refusal an instruction answers, if it answers one. -/
def refusal? (o : Host.Outcome State Fault Refusal) : Option Refusal :=
  match o with
  | .refused r => some r
  | _ => none

/-- The decoder's registers after an instruction. -/
def fdAfter (i : Instr) (fd : Fd) : Option Fd := (next? (exec i (stateOf fd .reset))).map (·.fd)

/-- The smoother's registers after an instruction. -/
def mvAfter (i : Instr) (mv : Mv) : Option Mv := (next? (exec i (stateOf .reset mv))).map (·.mv)

/-- The result of an instruction. -/
def resultOf (i : Instr) (fd : Fd) (mv : Mv) : Option Event :=
  (next? (exec i (stateOf fd mv))).bind (·.events.head?)

/-- The instruction an issue decodes to. -/
def decoded (slot : ByteSlot) (returned : Option Frame) (i : Issue) : Option Instr :=
  (decode .document slot returned i).toOption

/-! ## WellFormed: an ill-formed term for each check is refused -/

theorem test_illformed_wait_start_other : Instr.check .document (.feedWaitStartOther 0xFD) = false := by decide
theorem test_wellformed_wait_start_other : Instr.check .document (.feedWaitStartOther 0xED) = true := by decide
theorem test_illformed_terminator_other : Instr.check .document (.feedTerminatorOther 0xED) = false := by decide
theorem test_wellformed_terminator_other : Instr.check .document (.feedTerminatorOther 0xFD) = true := by decide
theorem test_illformed_keypoint_command : Instr.check .document (.extractKeypoint (frameOf 1)) = false := by decide
theorem test_illformed_classification_command :
    Instr.check .document (.extractClassification (frameOf 2)) = false := by decide
theorem test_illformed_detection_command : Instr.check .document (.extractDetection (frameOf 0)) = false := by decide
theorem test_illformed_reserved_command : Instr.check .document (.extractReserved (frameOf 2)) = false := by decide
theorem test_wellformed_reserved_command : Instr.check .document (.extractReserved (frameOf 3)) = true := by decide
theorem test_illformed_frame_length :
    Instr.check .document (.extractClassification { frameA with length := 6 }) = false := by decide
theorem test_illformed_frame_terminator :
    Instr.check .document (.extractClassification { frameA with terminator := 0xEC }) = false := by decide

/-! ## Decode: words written out from R82, R83, R86, R70 and the table -/

theorem test_decode_fd_nop : decoded .waitStart none (.fdWord 0b0000000000) = some .fdNop := by decide
theorem test_decode_fd_nop_unused : decoded .waitStart none (.fdWord 0b0011111111) = some .fdNop := by decide
theorem test_decode_feed : decoded .waitStart none (.fdWord 0b0111111101) = some (.feed 0xFD) := by decide
theorem test_decode_reset : decoded .waitStart none (.fdWord 0b1000000000) = some .reset := by decide
theorem test_decode_fd_reserved : decoded .waitStart none (.fdWord 0b1100000001) = some .fdReserved := by decide
theorem test_decode_mv_nop : decoded .waitStart none (.mvWord 0b0000000000) = some .mvNop := by decide
theorem test_decode_sample : decoded .waitStart none (.mvWord 0b0100000011) = some (.sample 3) := by decide
theorem test_decode_evaluate : decoded .waitStart none (.mvWord 0b1000000000) = some .evaluate := by decide
theorem test_decode_clear : decoded .waitStart none (.mvWord 0b1100000000) = some .clear := by decide
theorem test_decode_wait_start_head :
    decoded .waitStart none (.byte 0b11111101) = some .feedWaitStartHead := by decide
theorem test_decode_wait_start_other :
    decoded .waitStart none (.byte 0b11101101) = some (.feedWaitStartOther 0xED) := by decide
theorem test_decode_header_cmd : decoded .command none (.byte 0xFD) = some (.feedHeaderCmd 0xFD) := by decide
theorem test_decode_header_len_lo : decoded .lenLo none (.byte 0x05) = some (.feedHeaderLenLo 5) := by decide
theorem test_decode_header_len_hi : decoded .lenHi none (.byte 0x01) = some (.feedHeaderLenHi 1) := by decide
theorem test_decode_payload : decoded .payload none (.byte 0xED) = some (.feedPayload 0xED) := by decide
theorem test_decode_trailer : decoded .trailer none (.byte 0xED) = some (.feedTrailer 0xED) := by decide
theorem test_decode_terminator_end :
    decoded .terminator none (.byte 0b11101101) = some .feedTerminatorEnd := by decide
theorem test_decode_terminator_other :
    decoded .terminator none (.byte 0b11111101) = some (.feedTerminatorOther 0xFD) := by decide

/-- V-FD-3's frame. -/
theorem test_decode_keypoint :
    decoded .waitStart none (.frameBytes [0xFD, 0x00, 0x00, 0x00, 0x11, 0x22, 0x33, 0x44, 0xED]) =
      some (.extractKeypoint ⟨0, 0, [], [0x11, 0x22, 0x33, 0x44], 0xED⟩) := by decide

/-- V-FD-2's frame. -/
theorem test_decode_classification :
    decoded .waitStart none
        (.frameBytes [0xFD, 0x01, 0x05, 0x00, 0x00, 0x03, 0x50, 0x07, 0x20, 0xAA, 0xBB, 0xCC, 0xDD, 0xED]) =
      some (.extractClassification frameA) := by decide

/-- V-FD-5's frame: the markers inside it are data. -/
theorem test_decode_detection :
    decoded .waitStart none
        (.frameBytes [0xFD, 0x02, 0x02, 0x00, 0xFD, 0xED, 0xED, 0xED, 0xED, 0xED, 0xED]) =
      some (.extractDetection ⟨2, 2, [0xFD, 0xED], [0xED, 0xED, 0xED, 0xED], 0xED⟩) := by decide

/-- V-FD-5's second frame: FD at the CMD position is a reserved command. -/
theorem test_decode_reserved :
    decoded .waitStart none (.frameBytes [0xFD, 0xFD, 0x00, 0x00, 0x00, 0x00, 0x00, 0x00, 0xED]) =
      some (.extractReserved ⟨0xFD, 0, [], [0, 0, 0, 0], 0xED⟩) := by decide

theorem test_decode_returned : decoded .waitStart (some frameA) .extractReturned = some (.extractClassification frameA) := by
  decide
theorem test_decode_nothing_returned : decoded .waitStart none .extractReturned = none := by decide
theorem test_decode_bad_head : decoded .waitStart none (.frameBytes [0xFC, 0, 0, 0, 0, 0, 0, 0, 0xED]) = none := by
  decide
theorem test_decode_bad_end : decoded .waitStart none (.frameBytes [0xFD, 0, 0, 0, 0, 0, 0, 0, 0xEC]) = none := by
  decide
theorem test_decode_cut_frame : decoded .waitStart none (.frameBytes [0xFD, 0, 1, 0, 0, 0, 0, 0, 0xED]) = none := by
  decide

/-! ### Words of the table -/

theorem test_table_feed : decodeTableWord 16 0x1FD = some (.feed 0xFD) := by decide
theorem test_table_reserved_word : decodeTableWord 16 0x300 = some .fdReserved := by decide
theorem test_table_head : decodeTableWord 8 0xFD = some .feedWaitStartHead := by decide
theorem test_table_end : decodeTableWord 8 0xED = some .feedTerminatorEnd := by decide
theorem test_table_detection :
    decodeTableWord 16 0xFD02 = some (.extractDetection ⟨2, 0, [], [0, 0, 0, 0], 0xED⟩) := by decide

/-- The word placed after reset is what the next step runs. -/
theorem test_fetch_word_feed :
    (next? (step (State.reset.withFetchWord 16 0x1FD))).map (·.fd.st) = some .header := by decide
theorem test_fetch_word_end :
    (next? (step (State.reset.withFetchWord 8 0xED))).map (·.fd.st) = some .waitStart := by decide
theorem test_fetch_word_reserved :
    refusal? (step (State.reset.withFetchWord 16 0x300)) = some .reservedFdOp := by decide
theorem test_fetch_word_frame :
    (next? (step (State.reset.withFetchWord 16 0xFD01))).map (·.events) = some [.extract []] := by decide

/-! ## The Frame Decoder: the bytes of V-FD-2, V-FD-3 and V-FD-8, one step each -/

theorem test_feed_head : fdAfter (.feed 0xFD) (fdIn .waitStart 2 5 5 3) = some (fdIn .header 0 5 0 0) := by decide
theorem test_feed_noise : fdAfter (.feed 0xED) (fdIn .waitStart 2 5 5 3) = some (fdIn .waitStart 2 5 5 3) := by decide
theorem test_wait_start_head :
    fdAfter .feedWaitStartHead (fdIn .waitStart 2 5 5 3) = some (fdIn .header 0 5 0 0) := by decide
theorem test_wait_start_other :
    fdAfter (.feedWaitStartOther 0) (fdIn .waitStart 2 5 5 3) = some (fdIn .waitStart 2 5 5 3) := by decide
theorem test_header_cmd_takes_marker :
    (fdAfter (.feedHeaderCmd 0xFD) (fdIn .header 0 0 0 0)).map (fun f => (f.cmd, f.hcnt)) = some (0xFD, 1) := by decide

/-- R103's example, over a length register whose high byte is stale. -/
theorem test_header_len_lo :
    fdAfter (.feedHeaderLenLo 5) (fdIn .header 1 0x1234 0 0) = some (fdIn .header 2 0x1205 0 0) := by decide

/-- R104's third example: low byte 0, high byte 1, so 256. -/
theorem test_header_len_hi : fdAfter (.feedHeaderLenHi 1) (fdIn .header 2 0x3300 0 0) = some (fdIn .payload 2 256 0 0) := by
  decide

/-- R104's second example: a zero length goes to TRAILER. -/
theorem test_header_len_zero : fdAfter (.feedHeaderLenHi 0) (fdIn .header 2 0x3300 0 0) = some (fdIn .trailer 2 0 0 0) := by
  decide

/-- R105's example: length 2, the second byte leaves PAYLOAD. -/
theorem test_payload_last :
    (fdAfter (.feedPayload 0xBB) (fdIn .payload 2 2 1 0)).map (fun f => (f.st, f.pcnt, Memory.read f.pay 1)) =
      some (.trailer, 2, 0xBB) := by decide
theorem test_payload_more :
    (fdAfter (.feedPayload 0xED) (fdIn .payload 2 5 1 0)).map (fun f => (f.st, f.pcnt, Memory.read f.pay 1)) =
      some (.payload, 2, 0xED) := by decide
theorem test_trailer_more :
    (fdAfter (.feedTrailer 0xED) (fdIn .trailer 2 5 5 2)).map (fun f => (f.st, f.tcnt, Memory.firstBytes f.trl 4)) =
      some (.trailer, 3, [0xAA, 0xBB, 0xED, 0xDD]) := by decide
theorem test_trailer_last :
    (fdAfter (.feedTrailer 0x11) (fdIn .trailer 2 5 5 3)).map (fun f => (f.st, Memory.firstBytes f.trl 4)) =
      some (.terminator, [0xAA, 0xBB, 0xCC, 0x11]) := by decide

/-- R107's example. -/
theorem test_terminator_end : resultOf .feedTerminatorEnd fdHeld .reset = some (.feed (some frameA)) := by decide
theorem test_feed_end : fdAfter (.feed 0xED) fdHeld = some (fdIn .waitStart 2 5 5 3) := by decide

/-- R108's example: FD is dropped too. -/
theorem test_terminator_other : fdAfter (.feedTerminatorOther 0xFD) fdHeld = some fdHeld := by decide
theorem test_terminator_other_result : resultOf (.feedTerminatorOther 0x55) fdHeld .reset = some (.feed none) := by decide

/-- R109's example. -/
theorem test_reset_in_payload : (fdAfter .reset (fdIn .payload 2 9 3 0)).map (·.st) = some .waitStart := by decide

/-- R110's example. -/
theorem test_fd_nop : fdAfter .fdNop (fdIn .trailer 2 5 5 2) = some (fdIn .trailer 2 5 5 2) := by decide
theorem test_fd_reserved : refusal? (exec .fdReserved (stateOf fdHeld mv001)) = some .reservedFdOp := by decide

/-- R106 with `TRAILER_LEN` = 2, which U1 allows: the second byte leaves TRAILER. -/
theorem test_trailer_of_two :
    (next? (exec (.feedTrailer 0x11) { stateOf (fdIn .trailer 2 5 5 1) .reset with
      cfg := { small with trailerLen := 2 } })).map (fun t => (t.fd.st, Memory.read t.fd.trl 1)) =
      some (.terminator, 0x11) := by decide

/-- U11: a state that no run reaches is refused, and is no fault. -/
theorem test_unreachable_window :
    refusal? (exec (.sample 0) (stateOf .reset { mv0011 with wlen := 5 })) = some .unreachableState := by decide

/-! ## The Signal Extractor -/

/-- V-SX-7: cmd 0 and cmd 0x7F give no candidates. -/
theorem test_extract_keypoint : resultOf (.extractKeypoint (frameOf 0)) .reset .reset = some (.extract []) := by decide
theorem test_extract_reserved : resultOf (.extractReserved (frameOf 0x7F)) .reset .reset = some (.extract []) := by decide

/-- V-SX-1. -/
theorem test_extract_classification : resultOf (.extractClassification frameA) .reset .reset =
    some (.extract [⟨3, 0x50, .classification⟩, ⟨7, 0x20, .classification⟩]) := by decide

/-- V-SX-2 with L = 4: the lone id byte is skipped. -/
theorem test_extract_classification_cut : classificationCandidates .document
    ⟨1, 4, [0x00, 0x10, 0x11, 0x12], [0, 0, 0, 0], 0xED⟩ = [⟨0x10, 0x11, .classification⟩] := by decide

/-- V-SX-4 and V-SX-5. -/
theorem test_extract_detection : resultOf (.extractDetection
    ⟨2, 13, [0, 2, 0x10, 0x20, 0x30, 0x40, 0x5A, 4, 0x11, 0x21, 0x31, 0x41, 0x63], [0, 0, 0, 0], 0xED⟩) .reset .reset =
    some (.extract [⟨2, 0x5A, .detection⟩, ⟨4, 0x63, .detection⟩]) := by decide
theorem test_extract_detection_cut : detectionCandidates .document
    ⟨2, 12, [0, 2, 0x10, 0x20, 0x30, 0x40, 0x5A, 4, 0x11, 0x21, 0x31, 0x41], [0, 0, 0, 0], 0xED⟩ =
    [⟨2, 0x5A, .detection⟩] := by decide

/-! ## The smoother: program P3 and the source's own windows -/

/-- P3 step 7. -/
theorem test_sample_fills : mvAfter (.sample 1) mv001 = some mv0011 := by decide
theorem test_sample_fills_result : resultOf (.sample 1) .reset mv001 = some (.sample (some (.signal 1))) := by decide

/-- P3 steps 6 and 9. -/
theorem test_evaluate_partial : resultOf .evaluate .reset mv001 = some (.evaluate (.signal 0)) := by decide
theorem test_evaluate_tie : resultOf .evaluate .reset mv0011 = some (.evaluate (.signal 1)) := by decide

/-- P3 step 10: only the length and the counters are set. -/
theorem test_clear : (mvAfter .clear mv0011).map (fun m => (m.wlen, m.cnt)) = some (0, []) := by decide
theorem test_mv_nop : mvAfter .mvNop mv001 = some mv001 := by decide

/-- S5, the source's windows, and V-MV-3, V-MV-4, V-MV-6. -/
theorem test_vote_seq_majority : voteSeq [0, 1, 1, 0, 1] = .signal 1 := by decide
theorem test_vote_seq_tie : voteSeq [0, 0, 1, 1] = .signal 1 := by decide
theorem test_vote_seq_empty : voteSeq [] = .noSignal := by decide
theorem test_vote_seq_distinct : voteSeq [2, 0, 1] = .signal 1 := by decide
theorem test_vote_seq_not_first : voteSeq [0, 1, 1, 0] = .signal 0 := by decide

/-! ## The invariant on small states -/

/-- The empty window meets the invariant. -/
theorem test_inv_empty : Mv.reset.Inv small := by
  refine ⟨by decide, by decide, by decide, by decide, fun k => ?_, by decide, by decide, by decide⟩
  exact Nat.zero_lt_succ 3

/-- A state in which the decoder holds a frame and the window is partly filled meets the invariant. -/
theorem test_inv_mv001 : mv001.Inv small := by
  refine ⟨by decide, by decide, by decide, by decide, fun k => ?_, by decide, by decide, by decide⟩
  show Cells.read 0 [(0, 1), (1, 2)] k < 4
  simp only [Cells.read]
  split
  · decide
  · split <;> decide

theorem test_inv_mv0011 : mv0011.Inv small := by
  refine ⟨by decide, by decide, by decide, by decide, fun k => ?_, by decide, by decide, by decide⟩
  show Cells.read 0 [(0, 1), (1, 3)] k < 4
  simp only [Cells.read]
  split
  · decide
  · split <;> decide

theorem test_inv_fd : fdHeld.Inv small ∧ (fdIn .payload 2 5 4 0).Inv small ∧ (fdIn .header 2 5 0 0).Inv small ∧
    (fdIn .trailer 2 5 5 3).Inv small ∧ (fdIn .waitStart 2 5 1 3).Inv small :=
  ⟨⟨by decide, by decide, by decide, rfl⟩, ⟨by decide, by decide, by decide, by decide, rfl⟩,
    ⟨by decide, by decide, by decide, rfl, rfl⟩, ⟨by decide, by decide, by decide, rfl⟩,
    ⟨by decide, by decide, by decide, trivial⟩⟩

theorem test_inv_state : (stateOf fdHeld mv001).Inv where
  legal := by decide
  fd := test_inv_fd.1
  mv := test_inv_mv001
  events := by intro e he; cases he
  shown := by intro r hr; cases hr
  handOff := by intro h; cases h

theorem test_inv_handed : handed.Inv where
  legal := by decide
  fd := ⟨by decide, by decide, by decide, trivial⟩
  mv := test_inv_mv001
  events := by
    intro e he
    rcases List.mem_singleton.1 he with rfl
    exact ⟨by decide, by decide⟩
  shown := by intro r hr; cases hr
  handOff := fun _ => by decide

/-- A payload counter at its length is not a state of PAYLOAD. -/
theorem test_not_inv_payload : ¬ (fdIn .payload 2 5 5 0).PositionOk := fun h => absurd h.1 (by decide)

/-! ## Witnesses: for each statement that has hypotheses, states and operands that meet them together -/

theorem test_witness_FeedScansForHead : ∃ (s : State) (b c : Byte),
    s.fd.st = .waitStart ∧ b = s.cfg.head ∧ c ≠ s.cfg.head :=
  ⟨State.reset, 0xFD, 0xFC, by decide⟩

theorem test_witness_FeedStoresCommand : ∃ s : State, s.fd.st = .header ∧ s.fd.hcnt = 0 :=
  ⟨stateOf (fdIn .header 0 5 0 0) mv001, by decide⟩

theorem test_witness_FeedStoresLengthLow : ∃ s : State, s.fd.st = .header ∧ s.fd.hcnt = 1 :=
  ⟨stateOf (fdIn .header 1 0xFFFF 0 0) mv001, by decide⟩

theorem test_witness_FeedCompletesLength : ∃ s : State, s.fd.st = .header ∧ s.fd.hcnt = 2 ∧
    (fdAfter (.feed 0) s.fd).map (·.len) = some 0 ∧ (fdAfter (.feed 0xFF) s.fd).map (·.len) = some 0xFF00 :=
  ⟨stateOf (fdIn .header 2 0x0100 0 0) .reset, by decide⟩

/-- The last address of the buffer, and a byte that is not the last. -/
theorem test_witness_FeedStoresPayloadByte :
    (∃ s : State, s.cfg.Legal ∧ s.fd.st = .payload ∧ s.fd.pcnt.toNat < s.fd.len.toNat ∧ s.fd.pcnt.toNat + 1 = s.fd.len.toNat ∧
      s.fd.pcnt.toNat = 65534) ∧
    (∃ s : State, s.cfg.Legal ∧ s.fd.st = .payload ∧ s.fd.pcnt.toNat < s.fd.len.toNat ∧ s.fd.pcnt.toNat + 1 ≠ s.fd.len.toNat) :=
  ⟨⟨stateOf (fdIn .payload 2 65535 65534 0) mv001, by decide⟩, ⟨stateOf (fdIn .payload 2 2 0 0) mv001, by decide⟩⟩

theorem test_witness_FeedStoresTrailerByte :
    (∃ s : State, s.fd.st = .trailer ∧ s.fd.tcnt < s.cfg.trailerLen ∧ s.fd.tcnt + 1 = s.cfg.trailerLen) ∧
    (∃ s : State, s.fd.st = .trailer ∧ s.fd.tcnt < s.cfg.trailerLen ∧ s.fd.tcnt + 1 ≠ s.cfg.trailerLen) :=
  ⟨⟨stateOf (fdIn .trailer 2 0 0 3) mv001, by decide⟩, ⟨stateOf (fdIn .trailer 2 0 0 2) mv001, by decide⟩⟩

/-- For FeedEmitsHeldFrame, with a payload and with none. -/
theorem test_witness_FeedEmitsHeldFrame :
    (∃ s : State, s.fd.st = .terminator ∧ 0 < s.fd.len.toNat) ∧ (∃ s : State, s.fd.st = .terminator ∧ s.fd.len = 0) :=
  ⟨⟨stateOf fdHeld mv001, by decide⟩, ⟨stateOf (fdIn .terminator 2 0 0 3) mv001, by decide⟩⟩

theorem test_witness_FeedDropsWrongTerminator : ∃ (s : State) (b : Byte), s.fd.st = .terminator ∧ b ≠ s.cfg.endMark :=
  ⟨stateOf fdHeld mv001, 0xFD, by decide⟩

theorem test_witness_ResetReturnsToWaitStart : ∃ s : State, s.fd.st = .waitStart := ⟨State.reset, by decide⟩

theorem test_witness_ReservedFdOpIsRefused : ∃ (s : State) (d : Byte) (rest : List Stimulus),
    s.cfg.Legal ∧ s.pending = .op (.fdWord (OpWord.make 3 d)) :: rest :=
  ⟨(stateOf fdHeld mv001).setPending [.op (.fdWord (OpWord.make 3 7))], 7, [], by decide⟩

/-- Every position of the decoder, with a register or a byte that is live after the operation and not written by it. -/
theorem test_witness_FeedKeepsOtherRegisters :
    (∃ s t : State, exec (.feed 0xFD) s = .next t ∧ s.fd.slot = .waitStart ∧ t.fd.st = .header) ∧
    (∃ s t : State, exec (.feed 0xED) s = .next t ∧ s.fd.slot = .command ∧ t.fd.PcntLive) ∧
    (∃ s t : State, exec (.feed 0xED) s = .next t ∧ s.fd.slot = .lenLo ∧ t.fd.CmdLive) ∧
    (∃ s t : State, exec (.feed 0xED) s = .next t ∧ s.fd.slot = .lenHi ∧ t.fd.LenLowLive) ∧
    (∃ s t : State, exec (.feed 0xED) s = .next t ∧ s.fd.slot = .payload ∧ t.fd.PayLive 3 ∧ 3 ≠ s.fd.pcnt.toNat ∧
      t.fd.TcntLive) ∧
    (∃ s t : State, exec (.feed 0xED) s = .next t ∧ s.fd.slot = .trailer ∧ t.fd.TrlLive s.cfg 2 ∧ 2 ≠ s.fd.tcnt ∧
      t.fd.LenHighLive) ∧
    (∃ s t : State, exec (.feed 0xEC) s = .next t ∧ s.fd.slot = .terminator ∧ t.fd.PayLive 4 ∧ t.fd.TrlLive s.cfg 3) :=
  ⟨⟨State.reset, _, rfl, rfl, rfl⟩, ⟨stateOf (fdIn .header 0 5 0 0) mv001, _, rfl, rfl, nofun⟩,
    ⟨stateOf (fdIn .header 1 5 0 0) mv001, _, rfl, rfl, nofun, nofun⟩,
    ⟨stateOf (fdIn .header 2 5 0 0) mv001, _, rfl, rfl, nofun, nofun⟩,
    ⟨stateOf (fdIn .payload 2 5 4 0) mv001, _, rfl, rfl, show 3 < 5 by decide, by decide, nofun, nofun⟩,
    ⟨stateOf (fdIn .trailer 2 5 5 3) mv001, _, rfl, rfl, show 2 < 4 by decide, by decide, nofun, nofun⟩,
    ⟨stateOf fdHeld mv001, _, rfl, rfl, show 4 < 5 by decide,
      show 3 < 4 by decide⟩⟩

theorem test_witness_ResetAndClearKeepTheRest : ∃ s t u : State, exec .reset s = .next t ∧ exec .clear s = .next u :=
  ⟨stateOf fdHeld mv001, _, _, rfl, rfl⟩

theorem test_witness_ByteRowsAreFeedByPosition : ∃ (s : State) (i : Instr) (k : ByteSlot),
    i.slot? = some k ∧ k ≠ s.fd.slot :=
  ⟨stateOf fdHeld mv001, .feedTrailer 0, .trailer, by decide⟩

/-- For WellFormedFrameIsReturned, the zero-length frame of V-FD-3. -/
theorem test_witness_WellFormedFrameIsReturned : ∃ (s : State) (rest : List Stimulus),
    s.cfg.Legal ∧ s.fd.st = .waitStart ∧ ([] : List Byte).length ≤ 65535 ∧
      [0x11, 0x22, 0x33, (0x44 : Byte)].length = s.cfg.trailerLen ∧
      s.pending = Trace.frame s.cfg 0 [] [0x11, 0x22, 0x33, 0x44] ++ rest :=
  ⟨State.reset.setPending (Trace.frame .document 0 [] [0x11, 0x22, 0x33, 0x44] ++ [.hardwareReset]),
    [.hardwareReset], by decide, rfl, by decide, rfl, rfl⟩

/-- V-FD-1's bytes. -/
theorem test_witness_NoHeadNoFrame : ∃ s : State, s.fd.st = .waitStart ∧
    ∀ b ∈ [0x00, 0xED, 0x7F, 0xFF, (0x01 : Byte)], b ≠ s.cfg.head :=
  ⟨State.reset, by decide⟩

/-- V-FD-8's dropped bytes. -/
theorem test_witness_StuckTerminatorHoldsFrame : ∃ s : State, s.fd.st = .terminator ∧
    ∀ b ∈ [0x55, 0xFD, 0x01, (0x00 : Byte)], b ≠ s.cfg.endMark :=
  ⟨stateOf fdHeld mv001, by decide⟩

/-- V-FD-3's bytes, fed from reset. -/
theorem test_witness_ReturnedFrameIsWhatWasFed : ∃ (t : State) (bs : List Byte) (f : Frame),
    State.reset.cfg.Legal ∧ State.reset.fd.st = .waitStart ∧ bs ≠ [] ∧ feedAll State.reset bs = .next t ∧
      t.events.head? = some (.feed (some f)) :=
  ⟨_, [0xFD, 0, 0, 0, 0x11, 0x22, 0x33, 0x44, 0xED], ⟨0, 0, [], [0x11, 0x22, 0x33, 0x44], 0xED⟩,
    by decide, rfl, by decide, rfl, rfl⟩

theorem test_witness_ChunkingAndFrameCount : ∃ t : State,
    feedAll State.reset [0xFD, 0x01] = .next t ∧ State.reset.cfg.Legal ∧ State.reset.fd.st = .waitStart :=
  ⟨_, rfl, by decide, rfl⟩

theorem test_witness_FedBytesAreSteps : ∃ (s t : State) (bs : List Byte) (rest : List Stimulus),
    s.cfg.Legal ∧ s.pending = Trace.feedn bs ++ rest ∧ feedAll s bs = .next t ∧ bs ≠ [] :=
  ⟨State.reset.setPending (Trace.feedn [0xFD, 0x01]), _, [0xFD, 0x01], [], by decide, rfl, rfl, by decide⟩

theorem test_witness_RegistersRefineTaggedUnion : ∃ s : State, s.cfg.Legal ∧ s.fd.Inv s.cfg ∧ s.fd.st ≠ .waitStart :=
  ⟨stateOf fdHeld mv001, by decide, test_inv_fd.1, by decide⟩

/-- Two decoders that differ in void registers only. -/
theorem test_witness_VoidRegistersAreUnobservable : ∃ s t s' : State,
    s.cfg = t.cfg ∧ s.cfg.Legal ∧ s.fd.Inv s.cfg ∧ t.fd.Inv t.cfg ∧ s.fd.view s.cfg = t.fd.view t.cfg ∧ s.fd ≠ t.fd ∧
      feedAll s [0xFD] = .next s' :=
  ⟨stateOf .reset .reset, stateOf (fdIn .waitStart 2 5 1 3) .reset, _, rfl, by decide,
    ⟨by decide, by decide, by decide, trivial⟩, test_inv_fd.2.2.2.2, rfl, by decide, rfl⟩

/-- Before a byte of the payload, and, with void counters and lengths that differ, before the command. -/
theorem test_witness_FlowIgnoresContent :
    (∃ (s t s' : State) (b : Byte), s.cfg = t.cfg ∧ s.fd.SamePosition t.fd ∧ s.fd.hcnt ≠ t.fd.hcnt ∧
      s.fd.cmd ≠ t.fd.cmd ∧ exec (.feed b) s = .next s') ∧
    (∃ (s t s' : State) (b : Byte), s.cfg = t.cfg ∧ s.fd.SamePosition t.fd ∧ s.fd.len ≠ t.fd.len ∧
      exec (.feed b) s = .next s') :=
  ⟨⟨stateOf (fdIn .payload 2 5 4 0) mv001, stateOf { fdIn .payload 1 5 4 0 with cmd := 0, pay := [] } mv001, _, 1,
      rfl, ⟨rfl, (fun h => nomatch h), fun _ => rfl, fun _ => rfl, fun _ => rfl, fun _ => rfl⟩, by decide, by decide, rfl⟩,
    ⟨stateOf (fdIn .header 0 5 0 0) mv001, stateOf (fdIn .header 0 6 0 0) mv001, _, 1, rfl,
      ⟨rfl, fun _ => rfl, fun h => absurd (h.2 rfl) (by decide), fun h => absurd rfl h.2, fun _ => rfl, fun _ => rfl⟩,
      by decide, rfl⟩⟩

theorem test_witness_OnlyResetOrEndLeavesFrame :
    (∃ s t : State, exec .reset s = .next t ∧ s.fd.st ≠ .waitStart ∧ t.fd.st = .waitStart) ∧
    (∃ s t : State, exec .feedTerminatorEnd s = .next t ∧ s.fd.st ≠ .waitStart ∧ t.fd.st = .waitStart) :=
  ⟨⟨stateOf (fdIn .payload 2 5 4 0) mv001, _, rfl, by decide, rfl⟩, ⟨stateOf fdHeld mv001, _, rfl, by decide, rfl⟩⟩

/-- END in TERMINATOR, and END in TRAILER. -/
theorem test_witness_OnlyEndReturnsFrame :
    (∃ s t : State, exec (.feed 0xED) s = .next t ∧ framesIn t.events ≠ framesIn s.events) ∧
    (∃ s t : State, exec (.feed 0xED) s = .next t ∧ s.fd.st ≠ .terminator) :=
  ⟨⟨stateOf fdHeld mv001, _, rfl, by decide⟩, ⟨stateOf (fdIn .trailer 2 5 5 3) mv001, _, rfl, by decide⟩⟩

theorem test_witness_ClassificationCandidates : ∃ (s : State) (f : Frame), s.cfg.clsFirst = 1 ∧ s.cfg.clsStride = 2 ∧
    f.command = s.cfg.cmdClassification ∧ f.payload.length = f.length.toNat ∧ 0 < (f.length.toNat - 1) / 2 :=
  ⟨State.reset, frameA, by decide⟩

theorem test_witness_DetectionCandidates : ∃ (s : State) (f : Frame), s.cfg.detFirst = 1 ∧ s.cfg.detStride = 6 ∧
    s.cfg.detConfOff = 5 ∧ f.command = s.cfg.cmdDetection ∧ f.payload.length = f.length.toNat ∧
    (f.length.toNat - 1) / 6 = 1 :=
  ⟨State.reset, frameOf 2, by decide⟩

theorem test_witness_UninterpretedCommandsYieldNothing : ∃ (s : State) (f g : Frame),
    f.command = s.cfg.cmdKeypoint ∧ s.cfg.Reserved g.command ∧ g.command = 3 :=
  ⟨State.reset, frameOf 0, frameOf 3, by decide⟩

theorem test_witness_ExtractIsTotalOnFrames : ∃ (s : State) (f : Frame), s.cfg.Legal ∧
    Instr.extractKeypoint f ≠ decodeFrame s.cfg f ∧ Instr.extractDetection f ≠ decodeFrame s.cfg f :=
  ⟨State.reset, frameA, by decide⟩

/-- Two classification frames that differ in the type byte and in the lone last byte. -/
theorem test_witness_ExtractIgnoresUnreadBytes : ∃ (s : State) (f g : Frame), s.cfg.clsFirst = 1 ∧
    s.cfg.clsStride = 2 ∧ s.cfg.detFirst = 1 ∧ s.cfg.detStride = 6 ∧ s.cfg.detConfOff = 5 ∧
    f.payload.length = f.length.toNat ∧ g.payload.length = g.length.toNat ∧ f.command = g.command ∧
    f.length = g.length ∧ f ≠ g ∧
    (f.command = s.cfg.cmdClassification → ∀ r, 2 + 2 * r < f.length.toNat →
      f.payload[1 + 2 * r]? = g.payload[1 + 2 * r]? ∧ f.payload[2 + 2 * r]? = g.payload[2 + 2 * r]?) ∧
    (f.command = s.cfg.cmdDetection → ∀ r, 6 + 6 * r < f.length.toNat →
      f.payload[1 + 6 * r]? = g.payload[1 + 6 * r]? ∧ f.payload[6 + 6 * r]? = g.payload[6 + 6 * r]?) := by
  refine ⟨State.reset, ⟨1, 4, [0, 5, 6, 7], [0, 0, 0, 0], 0xED⟩, ⟨1, 4, [9, 5, 6, 8], [0, 0, 0, 0], 0xED⟩,
    rfl, rfl, rfl, rfl, rfl, by decide, by decide, rfl, rfl, by decide, fun _ r hr => ?_, fun h => absurd h (by decide)⟩
  have h0 : r = 0 := by
    have : 2 + 2 * r < 4 := hr
    omega
  subst h0
  decide

/-- A frame returned, no frame returned by the nearest feed, and no feed at all. -/
theorem test_witness_TraceExtractTakesReturnedFrame :
    (∃ (s : State) (rest : List Stimulus) (f : Frame) (later earlier : List Event), s.cfg.Legal ∧
      s.pending = .op .extractReturned :: rest ∧ s.events = later ++ .feed (some f) :: earlier ∧
      ∀ e ∈ later, ∀ q, e ≠ .feed q) ∧
    (∃ (s : State) (rest : List Stimulus) (later earlier : List Event), s.cfg.Legal ∧
      s.pending = .op .extractReturned :: rest ∧ s.events = later ++ .feed none :: earlier ∧
      ∀ e ∈ later, ∀ q, e ≠ .feed q) ∧
    (∃ (s : State) (rest : List Stimulus), s.cfg.Legal ∧ s.pending = .op .extractReturned :: rest ∧
      ∀ e ∈ s.events, ∀ q, e ≠ .feed q) :=
  ⟨⟨{ handed.setPending [.op .extractReturned] with events := [.reset, .feed (some frameA)] }, [], frameA, [.reset], [],
      by decide, rfl, rfl, by intro e he q; rcases List.mem_singleton.1 he with rfl; exact nofun⟩,
    ⟨{ handed.setPending [.op .extractReturned] with events := [.feed none, .feed (some frameA)] }, [], [],
      [.feed (some frameA)], by decide, rfl, rfl, by intro e he; cases he⟩,
    ⟨State.reset.setPending [.op .extractReturned], [], by decide, rfl, by intro e he; cases he⟩⟩

/-- The first id that is not valid, in a configuration whose sentinel is K itself. -/
theorem test_witness_InvalidSampleIgnored : ∃ (s : State) (id : Byte), s.cfg.numIds ≤ id.toNat ∧ s.cfg.Legal ∧
    id.toNat = s.cfg.numIds ∧ id = s.cfg.sentinel :=
  ⟨State.resetFor { small with numIds := 255 }, 255, by decide⟩

theorem test_witness_FullWindowDropsSample : ∃ (s : State) (id : Byte),
    id.toNat < s.cfg.numIds ∧ s.mv.wlen = s.cfg.windowCap :=
  ⟨stateOf .reset mv0011, 2, by decide⟩

/-- The filling sample, and one that does not fill. -/
theorem test_witness_SampleAccepted :
    (∃ (s : State) (id : Byte), id.toNat < s.cfg.numIds ∧ s.mv.wlen < s.cfg.windowCap ∧ s.mv.wlen + 1 = s.cfg.windowCap) ∧
    (∃ (s : State) (id : Byte), id.toNat < s.cfg.numIds ∧ s.mv.wlen < s.cfg.windowCap ∧ s.mv.wlen + 1 ≠ s.cfg.windowCap) :=
  ⟨⟨stateOf .reset mv001, 2, by decide⟩, ⟨State.reset, 0, by decide⟩⟩

theorem test_witness_ClearEmptiesWindow :
    (∃ (s : State) (k : Nat), k < s.cfg.numIds ∧ 1 ≤ s.cfg.windowCap ∧ 0 < Counters.read s.mv.cnt k) ∧
    (∃ s : State, s.mv.Inv s.cfg ∧ s.mv.wlen = 0) :=
  ⟨⟨stateOf .reset mv0011, 1, by decide⟩, ⟨State.resetFor small, test_inv_empty, rfl⟩⟩

/-- The hypothesis of the middle clause of EvaluateAnswersVote. -/
theorem test_witness_EvaluateAnswersVote : ∃ s : State, s.mv.wlen = 0 := ⟨State.reset, rfl⟩

/-- For VoteIsHighestThenMostRecent and VoteIsVoteSeqOfWindow: an empty window, and a tie. -/
theorem test_witness_VoteIsHighestThenMostRecent :
    (∃ (c : Config) (mv : Mv), c.Legal ∧ mv.Inv c ∧ mv.wlen = 0) ∧
    (∃ (c : Config) (mv : Mv), c.Legal ∧ mv.Inv c ∧ mv.wlen ≠ 0 ∧
      Counters.read mv.cnt 0 = Counters.read mv.cnt 1) := by
  exact ⟨⟨small, .reset, by decide, test_inv_empty, rfl⟩, ⟨small, mv0011, by decide, test_inv_mv0011, by decide⟩⟩

theorem test_witness_VoteIsVoteSeqOfWindow : ∃ (c : Config) (mv : Mv), c.Legal ∧ mv.Inv c ∧ mv.window = [0, 0, 1] :=
  ⟨small, mv001, by decide, test_inv_mv001, by decide⟩

theorem test_witness_VoteSeqIsForemost : ∃ (w : List Byte) (k : Byte), w ≠ [] ∧ k ∈ w ∧ lastIdx w k = 3 :=
  ⟨[0, 0, 1, 1], 1, by decide⟩

theorem test_witness_PluralityAndDistinctSamples :
    (∃ (w : List Byte) (k : Byte), k ∈ w ∧ (∀ j ∈ w, j ≠ k → w.count j < w.count k) ∧ w.length = 5) ∧
    (∃ (w : List Byte) (k : Byte), (w ++ [k]).Nodup ∧ w.length = 2) :=
  ⟨⟨[1, 1, 1, 0, 0], 1, by decide⟩, ⟨[2, 0], 1, by decide⟩⟩

theorem test_witness_CountsAddUpToWindow : ∃ (c : Config) (mv : Mv) (j k : Nat), mv.Inv c ∧ j < c.numIds ∧ k < c.numIds ∧
    j ≠ k ∧ 0 < Counters.read mv.cnt j ∧ 0 < Counters.read mv.cnt k :=
  ⟨small, mv0011, 0, 1, test_inv_mv0011, by decide⟩

theorem test_witness_SmootherRefinesWindow : ∃ s : State, s.cfg.Legal ∧ s.mv.Inv s.cfg ∧ s.mv.wlen = 3 :=
  ⟨stateOf fdHeld mv001, by decide, test_inv_mv001, rfl⟩

theorem test_witness_FullWindowIsFrozen : ∃ (s : State) (is : List Instr), s.mv.wlen = s.cfg.windowCap ∧
    (∀ i ∈ is, unitOf i = .mv ∧ i ≠ .clear) ∧ is.length = 4 :=
  ⟨stateOf .reset mv0011, [.sample 0, .evaluate, .sample 255, .mvNop], by decide⟩

theorem test_witness_FdAndMvCommute : ∃ (i j : Instr) (s a t : State), unitOf i = .fd ∧ unitOf j = .mv ∧
    exec i s = .next a ∧ exec j a = .next t :=
  ⟨.feed 0xED, .sample 1, stateOf fdHeld mv001, _, _, rfl, rfl, rfl, rfl⟩

theorem test_witness_UnitsKeepToTheirRegisters :
    (∃ s t : State, exec (.feed 0xED) s = .next t) ∧ (∃ s t : State, exec (.sample 1) s = .next t) ∧
    (∃ s t : State, exec (.extractClassification frameA) s = .next t) :=
  ⟨⟨stateOf fdHeld mv001, _, rfl⟩, ⟨stateOf fdHeld mv001, _, rfl⟩, ⟨stateOf fdHeld mv001, _, rfl⟩⟩

theorem test_witness_ConfigurationNeverChanges : ∃ s t : State, step s = .next t ∧ s.pending ≠ [] :=
  ⟨State.reset.setPending [.hardwareReset], _, rfl, by decide⟩

theorem test_witness_StepKeepsInvariant : ∃ s t : State, s.Inv ∧ step s = .next t ∧ s.fd ≠ t.fd := by
  refine ⟨(stateOf fdHeld mv001).setPending [.op (.fdWord 0x1ED)], _, ?_, rfl, by decide⟩
  have h := test_inv_state
  exact ⟨h.legal, h.fd, h.mv, h.events, h.shown, h.handOff⟩

theorem test_witness_ResetMeetsInvariant : ∃ c : Config, c.Legal ∧ c.windowCap = 65535 :=
  ⟨{ small with windowCap := 65535 }, by decide⟩

theorem test_witness_OperationsAreTotal : ∃ (s : State) (i : Issue) (rest : List Stimulus) (instr : Instr), s.Inv ∧
    s.pending = .op i :: rest ∧ decodeIn s i = .ok instr ∧ instr ≠ .fdReserved := by
  refine ⟨(stateOf fdHeld mv001).setPending [.op (.byte 0xED)], .byte 0xED, [], .feedTerminatorEnd, ?_, rfl, rfl, by decide⟩
  have h := test_inv_state
  exact ⟨h.legal, h.fd, h.mv, h.events, h.shown, h.handOff⟩

/-- An issue that decodes, one that does not, and an illegal configuration. -/
theorem test_witness_StepRunsDecodedInstruction :
    (∃ (s : State) (i : Issue) (rest : List Stimulus) (instr : Instr), s.pending = .op i :: rest ∧ s.cfg.Legal ∧
      decodeIn s i = .ok instr) ∧
    (∃ (s : State) (i : Issue) (rest : List Stimulus) (e : DecodeError), s.pending = .op i :: rest ∧ s.cfg.Legal ∧
      decodeIn s i = .error e) ∧
    (∃ (s : State) (i : Issue) (rest : List Stimulus), s.pending = .op i :: rest ∧ ¬ s.cfg.Legal) :=
  ⟨⟨State.reset.setPending [.op (.fdWord 0x1FD)], _, _, .feed 0xFD, rfl, by decide, rfl⟩,
    ⟨State.reset.setPending [.op .extractReturned], _, _, .noFrameReturned, rfl, by decide, rfl⟩,
    ⟨(State.resetFor { windowCap := 0, numIds := 3 }).setPending [.op .extractReturned], _, _, rfl, by decide⟩⟩

theorem test_witness_NothingIssuedNothingHappens : ∃ s : State, s.pending = [] := ⟨stateOf fdHeld mv001, rfl⟩

theorem test_witness_HardwareResetIsResetThenClear : ∃ (s : State) (rest : List Stimulus) (fdOp mvOp : OpWord),
    s.cfg.Legal ∧ s.pending = .edge true fdOp mvOp :: rest :=
  ⟨(stateOf fdHeld mv0011).setPending [.edge true 0x300 0x101], [], 0x300, 0x101, by decide⟩

/-- For the step clause, two states that differ in void registers, and for the run clause, three operations. -/
theorem test_witness_NothingSurvivesHardwareReset :
    (∃ (i : Instr) (s t s' : State), SameLive s t ∧ exec i s = .next s' ∧ s.fd ≠ t.fd) ∧
    (∃ (s t : State) (is : List Instr), s.Inv ∧ execAll s.hardwareReset is = .next t ∧ is.length = 3) :=
  ⟨⟨.feed 0xFD, stateOf .reset mv001, stateOf (fdIn .waitStart 2 5 1 3) mv001, _,
      ⟨rfl, by decide, ⟨⟨by decide, by decide, by decide, trivial⟩, test_inv_fd.2.2.2.2⟩, ⟨test_inv_mv001, test_inv_mv001⟩,
        rfl, rfl⟩, rfl, by decide⟩,
    ⟨stateOf fdHeld mv001, _, [.feed 0xFD, .sample 2, .evaluate], test_inv_state, rfl, rfl⟩⟩

/-- The least N. -/
theorem test_witness_ResetValues : ∃ (c : Config) (s : State), 1 ≤ c.windowCap ∧ c.windowCap = 1 ∧ 1 ≤ s.cfg.windowCap ∧
    s.mv.wlen = s.cfg.windowCap :=
  ⟨{ small with windowCap := 1 }, stateOf fdHeld mv0011, by decide⟩

/-- Both events at one edge. -/
theorem test_witness_ClockEdgePerformsBoth : ∃ (s a b : State) (fdOp mvOp : OpWord) (f : Frame) (r : Resolution),
    exec (decodeFdWord fdOp) s = .next a ∧ exec (decodeMvWord mvOp) a = .next b ∧
      a.events = .feed (some f) :: s.events ∧ b.events = .sample (some r) :: a.events :=
  ⟨stateOf fdHeld mv001, _, _, 0x1ED, 0x101, frameA, .signal 1, rfl, rfl, rfl, rfl⟩

/-- For each of the three clauses. -/
theorem test_witness_FrameStaysInPlace :
    (∃ (s : State) (i : Nat) (f : Frame), s.Inv ∧ frameInPlace s.events = true ∧ returnedFrame s.events = some f ∧
      i < f.length.toNat ∧ i + 1 = f.length.toNat) ∧
    (∃ s t : State, exec (.feed s.cfg.endMark) s = .next t ∧ s.fd.st = .terminator) ∧
    (∃ (i : Instr) (s t : State), (unitOf i ≠ .fd ∨ i = .fdNop) ∧ exec i s = .next t ∧ frameInPlace s.events = true) :=
  ⟨⟨handed, 4, frameA, test_inv_handed, by decide⟩, ⟨stateOf fdHeld mv001, _, rfl, rfl⟩,
    ⟨.sample 1, handed, _, by decide, rfl, rfl⟩⟩

theorem test_witness_DecodeOfEncode : ∃ (c : Config) (slot : ByteSlot) (i : Instr), c.Legal ∧ i.WellFormed c ∧
    (∀ k, i.slot? = some k → k = slot) ∧ i = .extractClassification frameA :=
  ⟨.document, .waitStart, .extractClassification frameA, by decide, by decide, nofun, rfl⟩

theorem test_witness_ParseFrameIsExact : ∃ (c : Config) (f : Frame), f.WellFormed c ∧ f.wire c =
    [0xFD, 0x01, 0x05, 0x00, 0x00, 0x03, 0x50, 0x07, 0x20, 0xAA, 0xBB, 0xCC, 0xDD, 0xED] :=
  ⟨.document, frameA, by decide⟩

end Sys2Proof.Tests
end

section
/-!
What each unit's instructions answer (10_state.md R20, 00_scope.md R10): one inversion lemma per unit, from which the frame of
every instruction is read off.
-/

namespace Sys2Proof.Machine

/-! ## `FD` instructions -/

/-- Where the table selects a BYTE row, the row does what `feed` of its byte does (R100). -/
theorem exec_byteRow_next {i : Instr} {s t : State} (hi : i.slot? ≠ none) (h : exec i s = .next t) :
    ∃ b, exec (.feed b) s = .next t := by
  cases i with
  | feedWaitStartHead =>
    obtain ⟨hslot, h⟩ := whenSelected_next h
    exact ⟨s.cfg.head, (exec_feed_waitStart _ (Fd.slot_waitStart.1 hslot)).trans ((if_pos rfl).trans h)⟩
  | feedWaitStartOther b =>
    obtain ⟨⟨hslot, hb⟩, h⟩ := whenSelected_next h
    exact ⟨b, (exec_feed_waitStart b (Fd.slot_waitStart.1 hslot)).trans ((if_neg hb).trans h)⟩
  | feedHeaderCmd b =>
    obtain ⟨hslot, h⟩ := whenSelected_next h
    obtain ⟨hst, hcnt⟩ := Fd.slot_command.1 hslot
    exact ⟨b, (exec_feed_command b hst hcnt).trans h⟩
  | feedHeaderLenLo b =>
    obtain ⟨hslot, h⟩ := whenSelected_next h
    obtain ⟨hst, hcnt⟩ := Fd.slot_lenLo.1 hslot
    exact ⟨b, (exec_feed_lenLo b hst hcnt).trans h⟩
  | feedHeaderLenHi b =>
    obtain ⟨hslot, h⟩ := whenSelected_next h
    obtain ⟨hst, hcnt⟩ := Fd.slot_lenHi.1 hslot
    exact ⟨b, (exec_feed_lenHi b hst hcnt).trans h⟩
  | feedPayload b =>
    obtain ⟨hslot, h⟩ := whenSelected_next h
    exact ⟨b, (exec_feed_payload b (Fd.slot_payload.1 hslot)).trans h⟩
  | feedTrailer b =>
    obtain ⟨hslot, h⟩ := whenSelected_next h
    exact ⟨b, (exec_feed_trailer b (Fd.slot_trailer.1 hslot)).trans h⟩
  | feedTerminatorEnd =>
    obtain ⟨hslot, h⟩ := whenSelected_next h
    exact ⟨s.cfg.endMark, (exec_feed_terminator _ (Fd.slot_terminator.1 hslot)).trans ((if_pos rfl).trans h)⟩
  | feedTerminatorOther b =>
    obtain ⟨⟨hslot, hb⟩, h⟩ := whenSelected_next h
    exact ⟨b, (exec_feed_terminator b (Fd.slot_terminator.1 hslot)).trans ((if_neg hb).trans h)⟩
  | _ => exact absurd rfl hi

/-- Every `FD` instruction that completes is `fd_nop`, `reset` or a feed, which changes `FD` and returns its result. -/
theorem exec_fd_next {i : Instr} {s t : State} (hi : unitOf i = .fd) (h : exec i s = .next t) :
    (i = .fdNop ∧ t = s) ∨ (i = .reset ∧ t = s.after s.fd.toWaitStart s.mv .reset) ∨
      ∃ fd' r, t = s.after fd' s.mv (.feed r) := by
  cases i with
  | fdNop => cases h; exact .inl ⟨rfl, rfl⟩
  | reset => cases h; exact .inr (.inl ⟨rfl, rfl⟩)
  | fdReserved => cases h
  | feed b => exact .inr (.inr (exec_feed_next h))
  | feedWaitStartHead | feedWaitStartOther _ | feedHeaderCmd _ | feedHeaderLenLo _ | feedHeaderLenHi _
  | feedPayload _ | feedTrailer _ | feedTerminatorEnd | feedTerminatorOther _ =>
    obtain ⟨b, hb⟩ := exec_byteRow_next (by simp [Instr.slot?]) h
    exact .inr (.inr (exec_feed_next hb))
  | mvNop | sample _ | evaluate | clear => cases hi
  | extractKeypoint _ | extractClassification _ | extractDetection _ | extractReserved _ => cases hi

/-! ## `MV` instructions -/

/-- A sample that completes is ignored or dropped with no result (R155, R156), or accepted (R157). -/
theorem exec_sample_next {s t : State} {id : Byte} (h : exec (.sample id) s = .next t) :
    ((¬ IdValid s.cfg id ∨ s.mv.wlen = s.cfg.windowCap) ∧ t = s.after s.fd s.mv (.sample none)) ∨
      (IdValid s.cfg id ∧ s.mv.wlen < s.cfg.windowCap ∧
        t = s.after s.fd (s.mv.accept id) (.sample (acceptResult s.cfg s.mv id))) := by
  simp only [exec, execSample] at h
  split at h
  · next hv =>
    split at h
    · next hfull => cases h; exact .inl ⟨.inr hfull, rfl⟩
    · split at h
      · next hroom => cases h; exact .inr ⟨hv, hroom, rfl⟩
      · cases h
  · next hv => cases h; exact .inl ⟨.inl hv, rfl⟩

/-- Every `MV` instruction that completes is `mv_nop`, `evaluate`, `clear` or a sample. -/
theorem exec_mv_next {i : Instr} {s t : State} (hi : unitOf i = .mv) (h : exec i s = .next t) :
    (i = .mvNop ∧ t = s) ∨ (i = .evaluate ∧ t = s.after s.fd s.mv (.evaluate (vote s.cfg s.mv))) ∨
      (i = .clear ∧ t = s.after s.fd s.mv.emptied .clear) ∨
      ∃ id mv' r, i = .sample id ∧ t = s.after s.fd mv' (.sample r) := by
  cases i with
  | mvNop => cases h; exact .inl ⟨rfl, rfl⟩
  | evaluate => cases h; exact .inr (.inl ⟨rfl, rfl⟩)
  | clear => cases h; exact .inr (.inr (.inl ⟨rfl, rfl⟩))
  | sample id =>
    obtain ⟨-, ht⟩ | ⟨-, -, ht⟩ := exec_sample_next h <;> exact .inr (.inr (.inr ⟨id, _, _, rfl, ht⟩))
  | _ => cases hi

/-! ## `SX` instructions -/

/-- A FRAME row that completes gives the environment its candidates and writes no register (R130). -/
theorem exec_sx_next {i : Instr} {s t : State} (hi : unitOf i = .sx) (h : exec i s = .next t) :
    ∃ cs, t = s.after s.fd s.mv (.extract cs) := by
  cases i with
  | extractKeypoint _ | extractClassification _ | extractDetection _ | extractReserved _ =>
    exact ⟨_, (State.extracted_next h).2⟩
  | _ => cases hi

/-- Settles O45, unit by unit: a completed instruction leaves its state unchanged or is a `State.after` of its own unit's
registers. -/
theorem unitsKeepToTheirRegisters : Obligations.UnitsKeepToTheirRegisters := by
  intro i s t h
  cases hu : unitOf i with
  | fd => obtain ⟨-, rfl⟩ | ⟨-, rfl⟩ | ⟨fd', r, rfl⟩ := exec_fd_next hu h <;> simp
  | mv => obtain ⟨-, rfl⟩ | ⟨-, rfl⟩ | ⟨-, rfl⟩ | ⟨id, mv', r, -, rfl⟩ := exec_mv_next hu h <;> simp
  | sx => obtain ⟨cs, rfl⟩ := exec_sx_next hu h; simp

/-! ## Steps -/

/-- In a legal configuration a step performs the next stimulus, taken off the pending list (R10). -/
theorem step_eq_perform {s : State} {x : Stimulus} {rest : List Stimulus} (hp : s.pending = x :: rest)
    (hc : s.cfg.Legal) : step s = perform x (s.setPending rest) := by
  simp only [step, hp, if_pos hc]

/-- A configuration outside its domains has no step (R6, U14). -/
theorem step_of_not_legal {s : State} {x : Stimulus} {rest : List Stimulus} (hp : s.pending = x :: rest)
    (hc : ¬ s.cfg.Legal) : step s = .refused .illegalConfiguration := by
  simp only [step, hp, if_neg hc]

theorem perform_op_ok {s : State} {i : Issue} {instr : Instr} (h : decodeIn s i = .ok instr) :
    perform (.op i) s = exec instr s := by
  simp only [perform, h]

theorem perform_op_error {s : State} {i : Issue} {e : DecodeError} (h : decodeIn s i = .error e) :
    perform (.op i) s = .refused (.undecodable e) := by
  simp only [perform, h]

/-- What an issue stands for does not depend on what else is pending. -/
@[simp] theorem decodeIn_setPending (s : State) (q : List Stimulus) (i : Issue) :
    decodeIn (s.setPending q) i = decodeIn s i := rfl

/-- Settles O50: the step takes the issue off the pending list, which leaves what the issue stands for as it was. -/
theorem stepRunsDecodedInstruction : Obligations.StepRunsDecodedInstruction := by
  intro s i rest hp
  refine ⟨fun hc => ⟨fun instr hi => ?_, fun e he => ?_⟩, step_of_not_legal hp⟩
  · rw [step_eq_perform hp hc, perform_op_ok ((decodeIn_setPending s rest i).trans hi)]
  · rw [step_eq_perform hp hc, perform_op_error ((decodeIn_setPending s rest i).trans he)]

end Sys2Proof.Machine
end

section
/-!
What one `feed` does to the decoder, rule by rule (40_frame_decoder.md R101 to R108), as a relation on its registers: which
rule applies, the registers it leaves and the result it returns. Every fact about `feed` is a case analysis of it.
-/

namespace Sys2Proof.Machine

/-- The rule that a fed byte `b` falls under, the registers after it and the result; one case per outcome of R101 to R108. -/
inductive FeedRule (c : Config) (fd : Fd) (b : Byte) : Fd → Option Frame → Prop where
  /-- R101, the head marker. -/
  | head (hst : fd.st = .waitStart) (hb : b = c.head) :
      FeedRule c fd b { fd with st := .header, hcnt := 0, pcnt := 0, tcnt := 0 } none
  /-- R101, any other byte. -/
  | noise (hst : fd.st = .waitStart) (hb : b ≠ c.head) : FeedRule c fd b fd none
  /-- R102. -/
  | command (hst : fd.st = .header) (hh : fd.hcnt = 0) : FeedRule c fd b { fd with cmd := b, hcnt := 1 } none
  /-- R103. -/
  | lenLo (hst : fd.st = .header) (hh : fd.hcnt = 1) :
      FeedRule c fd b { fd with len := setLenLow fd.len b, hcnt := 2 } none
  /-- R104, a zero length. -/
  | lenHiZero (hst : fd.st = .header) (hh : fd.hcnt = 2) (hz : setLenHigh fd.len b = 0) :
      FeedRule c fd b { fd with len := setLenHigh fd.len b, st := .trailer } none
  /-- R104, a payload to come. -/
  | lenHiPayload (hst : fd.st = .header) (hh : fd.hcnt = 2) (hz : setLenHigh fd.len b ≠ 0) :
      FeedRule c fd b { fd with len := setLenHigh fd.len b, st := .payload } none
  /-- R105, the last payload byte. -/
  | payloadLast (hst : fd.st = .payload) (hin : fd.pcnt.toNat < c.payloadCap)
      (hl : fd.pcnt.toNat + 1 = fd.len.toNat) :
      FeedRule c fd b
        { fd with pay := Memory.write fd.pay fd.pcnt.toNat b, pcnt := fd.pcnt + 1, st := .trailer } none
  /-- R105, a payload byte with more to come. -/
  | payloadMore (hst : fd.st = .payload) (hin : fd.pcnt.toNat < c.payloadCap)
      (hl : fd.pcnt.toNat + 1 ≠ fd.len.toNat) :
      FeedRule c fd b { fd with pay := Memory.write fd.pay fd.pcnt.toNat b, pcnt := fd.pcnt + 1 } none
  /-- R106, the last trailer byte. -/
  | trailerLast (hst : fd.st = .trailer) (hl : fd.tcnt + 1 = c.trailerLen) :
      FeedRule c fd b { fd with trl := Memory.write fd.trl fd.tcnt b, st := .terminator } none
  /-- R106, a trailer byte with more to come. -/
  | trailerMore (hst : fd.st = .trailer) (hl : fd.tcnt + 1 < c.trailerLen) :
      FeedRule c fd b { fd with trl := Memory.write fd.trl fd.tcnt b, tcnt := fd.tcnt + 1 } none
  /-- R107. -/
  | emit (hst : fd.st = .terminator) (hb : b = c.endMark) : FeedRule c fd b fd.toWaitStart (some (heldFrame c fd))
  /-- R108. -/
  | wrongEnd (hst : fd.st = .terminator) (hb : b ≠ c.endMark) : FeedRule c fd b fd none

/-! ## The relation is what `feed` does -/

/-- A payload byte whose index is outside the buffer is refused. -/
theorem takePayload_outside {s : State} (b : Byte) (h : ¬ s.fd.pcnt.toNat < s.cfg.payloadCap) :
    takePayload b s = .refused .unreachableState := if_neg h

/-- A payload byte that completes falls under one of R105's two outcomes. -/
theorem takePayload_next {s t : State} {b : Byte} (hst : s.fd.st = .payload) (h : takePayload b s = .next t) :
    ∃ fd', FeedRule s.cfg s.fd b fd' none ∧ t = s.after fd' s.mv (.feed none) := by
  by_cases hin : s.fd.pcnt.toNat < s.cfg.payloadCap
  · rw [takePayload_inside b hin] at h
    by_cases hl : s.fd.pcnt.toNat + 1 = s.fd.len.toNat
    · rw [if_pos hl] at h; cases h; exact ⟨_, .payloadLast hst hin hl, rfl⟩
    · rw [if_neg hl] at h; cases h; exact ⟨_, .payloadMore hst hin hl, rfl⟩
  · rw [takePayload_outside b hin] at h; cases h

/-- A trailer byte that completes falls under one of R106's two outcomes. -/
theorem takeTrailer_next {s t : State} {b : Byte} (hst : s.fd.st = .trailer) (h : takeTrailer b s = .next t) :
    ∃ fd', FeedRule s.cfg s.fd b fd' none ∧ t = s.after fd' s.mv (.feed none) := by
  rcases Nat.lt_trichotomy (s.fd.tcnt + 1) s.cfg.trailerLen with hl | hl | hl
  · rw [takeTrailer_more b hl] at h; cases h; exact ⟨_, .trailerMore hst hl, rfl⟩
  · rw [takeTrailer_last b hl] at h; cases h; exact ⟨_, .trailerLast hst hl, rfl⟩
  · rw [takeTrailer_outside b (Nat.le_of_lt_succ hl)] at h; cases h

/-- LEN_HI falls under one of R104's two outcomes. -/
theorem takeLenHi_next {s t : State} {b : Byte} (hst : s.fd.st = .header) (hh : s.fd.hcnt = 2)
    (h : takeLenHi b s = .next t) :
    ∃ fd', FeedRule s.cfg s.fd b fd' none ∧ t = s.after fd' s.mv (.feed none) := by
  rw [takeLenHi_eq] at h
  by_cases hz : setLenHigh s.fd.len b = 0
  · rw [if_pos hz] at h; cases h; exact ⟨_, .lenHiZero hst hh hz, rfl⟩
  · rw [if_neg hz] at h; cases h; exact ⟨_, .lenHiPayload hst hh hz, rfl⟩

/-- A `feed` that completes follows one of the rules, and changes `FD` and the results only. -/
theorem exec_feed_rule {s t : State} {b : Byte} (h : exec (.feed b) s = .next t) :
    ∃ fd' r, FeedRule s.cfg s.fd b fd' r ∧ t = s.after fd' s.mv (.feed r) := by
  cases hslot : s.fd.slot with
  | waitStart =>
    have hst := Fd.slot_waitStart.1 hslot
    rw [exec_feed_waitStart b hst] at h
    split at h
    · next hb => cases h; exact ⟨_, _, .head hst hb, rfl⟩
    · next hb => cases h; exact ⟨_, _, .noise hst hb, rfl⟩
  | command =>
    obtain ⟨hst, hh⟩ := Fd.slot_command.1 hslot
    rw [exec_feed_command b hst hh] at h
    cases h; exact ⟨_, _, .command hst hh, rfl⟩
  | lenLo =>
    obtain ⟨hst, hh⟩ := Fd.slot_lenLo.1 hslot
    rw [exec_feed_lenLo b hst hh] at h
    cases h; exact ⟨_, _, .lenLo hst hh, rfl⟩
  | lenHi =>
    obtain ⟨hst, hh⟩ := Fd.slot_lenHi.1 hslot
    rw [exec_feed_lenHi b hst hh] at h
    obtain ⟨fd', hr, ht⟩ := takeLenHi_next hst hh h
    exact ⟨fd', _, hr, ht⟩
  | payload =>
    have hst := Fd.slot_payload.1 hslot
    rw [exec_feed_payload b hst] at h
    obtain ⟨fd', hr, ht⟩ := takePayload_next hst h
    exact ⟨fd', _, hr, ht⟩
  | trailer =>
    have hst := Fd.slot_trailer.1 hslot
    rw [exec_feed_trailer b hst] at h
    obtain ⟨fd', hr, ht⟩ := takeTrailer_next hst h
    exact ⟨fd', _, hr, ht⟩
  | terminator =>
    have hst := Fd.slot_terminator.1 hslot
    rw [exec_feed_terminator b hst] at h
    split at h
    · next hb => cases h; exact ⟨_, _, .emit hst hb, rfl⟩
    · next hb => cases h; exact ⟨_, _, .wrongEnd hst hb, rfl⟩

/-! ## The decoder's invariant (R30) -/

theorem payloadCap_of_legal {c : Config} (hc : c.Legal) : c.payloadCap = 65535 := by
  obtain ⟨-, -, -, -, -, hbits, hcap, -⟩ := hc
  exact hcap.trans (congrArg (2 ^ · - 1) hbits)

/-- R30(b) to (d), state by state. -/
theorem Fd.positionOk_header {fd : Fd} (h : fd.st = .header) : fd.PositionOk ↔ fd.pcnt = 0 ∧ fd.tcnt = 0 := by
  simp [Fd.PositionOk, h]

theorem Fd.positionOk_payload {fd : Fd} (h : fd.st = .payload) :
    fd.PositionOk ↔ fd.pcnt.toNat < fd.len.toNat ∧ fd.tcnt = 0 := by
  simp [Fd.PositionOk, h]

theorem Fd.positionOk_trailer {fd : Fd} (h : fd.st = .trailer) : fd.PositionOk ↔ fd.pcnt = fd.len := by
  simp [Fd.PositionOk, h]

/-- Below the length, which is at most 65535, the payload counter does not wrap (R105). -/
theorem pcnt_succ_toNat {pcnt len : U16} (h : pcnt.toNat < len.toNat) : (pcnt + 1).toNat = pcnt.toNat + 1 := by
  have := len.isLt
  exact BitVec.toNat_add_of_lt (y := 1) (show pcnt.toNat + 1 < 2 ^ 16 by omega)

/-- In a decoder that meets the invariant the payload address is inside the buffer (R26, R30(c)). -/
theorem Fd.Inv.pcnt_lt_payloadCap {c : Config} {fd : Fd} (h : fd.Inv c) (hc : c.Legal) (hst : fd.st = .payload) :
    fd.pcnt.toNat < c.payloadCap := by
  have := (Fd.positionOk_payload hst).1 h.position
  have := fd.len.isLt
  rw [payloadCap_of_legal hc]
  omega

/-- Writing inside its range keeps a byte memory canonical and in range. -/
theorem Memory.write_keeps_range {m : Memory} {bound a : Nat} (v : Byte)
    (hm : Memory.wf m = true ∧ Cells.below bound m = true) (ha : a < bound) :
    Memory.wf (Memory.write m a v) = true ∧ Cells.below bound (Memory.write m a v) = true :=
  ⟨Memory.wf_write a v hm.1, Cells.below_write v hm.2 ha⟩

/-- Back in WAIT_START nothing but the ranges is asked of the registers. -/
theorem Fd.Inv.toWaitStart {c : Config} {fd : Fd} (h : fd.Inv c) : fd.toWaitStart.Inv c :=
  ⟨h.pay_wf, h.trl_wf, h.tcnt_lt, trivial⟩

/-- Every rule keeps the decoder's invariant. -/
theorem FeedRule.keeps_inv {c : Config} {fd fd' : Fd} {b : Byte} {r : Option Frame} (hr : FeedRule c fd b fd' r)
    (h : fd.Inv c) : fd'.Inv c := by
  cases hr with
  | head hst hb => exact ⟨h.pay_wf, h.trl_wf, Nat.zero_lt_of_lt h.tcnt_lt, ⟨rfl, rfl⟩⟩
  | noise | wrongEnd => exact h
  | command hst hh | lenLo hst hh =>
    exact ⟨h.pay_wf, h.trl_wf, h.tcnt_lt, by simpa only [Fd.PositionOk, hst] using h.position⟩
  | lenHiZero hst hh hz =>
    obtain ⟨hp, -⟩ := (Fd.positionOk_header hst).1 h.position
    exact ⟨h.pay_wf, h.trl_wf, h.tcnt_lt, hp.trans hz.symm⟩
  | lenHiPayload hst hh hz =>
    obtain ⟨hp, ht⟩ := (Fd.positionOk_header hst).1 h.position
    refine ⟨h.pay_wf, h.trl_wf, h.tcnt_lt, ?_, ht⟩
    show fd.pcnt.toNat < (setLenHigh fd.len b).toNat
    rw [hp]
    exact Nat.pos_of_ne_zero fun h0 => hz (BitVec.eq_of_toNat_eq h0)
  | payloadLast hst hin hl =>
    obtain ⟨hlt, -⟩ := (Fd.positionOk_payload hst).1 h.position
    exact ⟨Memory.write_keeps_range b h.pay_wf hin, h.trl_wf, h.tcnt_lt,
      BitVec.eq_of_toNat_eq ((pcnt_succ_toNat hlt).trans hl)⟩
  | payloadMore hst hin hl =>
    obtain ⟨hlt, ht⟩ := (Fd.positionOk_payload hst).1 h.position
    have hnext : (fd.pcnt + 1).toNat < fd.len.toNat := by rw [pcnt_succ_toNat hlt]; omega
    exact ⟨Memory.write_keeps_range b h.pay_wf hin, h.trl_wf, h.tcnt_lt,
      by simpa only [Fd.PositionOk, hst] using ⟨hnext, ht⟩⟩
  | trailerLast hst hl =>
    exact ⟨h.pay_wf, Memory.write_keeps_range b h.trl_wf h.tcnt_lt, h.tcnt_lt,
      (Fd.positionOk_trailer hst).1 h.position⟩
  | trailerMore hst hl =>
    exact ⟨h.pay_wf, Memory.write_keeps_range b h.trl_wf h.tcnt_lt, hl,
      by simpa only [Fd.PositionOk, hst] using h.position⟩
  | emit => exact h.toWaitStart

/-- A decoder that meets the invariant completes every `feed` (R10, U11). -/
theorem exec_feed_completes {s : State} (hc : s.cfg.Legal) (h : s.fd.Inv s.cfg) (b : Byte) :
    ∃ t, exec (.feed b) s = .next t := by
  cases hslot : s.fd.slot with
  | waitStart => rw [exec_feed_waitStart b (Fd.slot_waitStart.1 hslot)]; split <;> exact ⟨_, rfl⟩
  | command =>
    obtain ⟨hst, hh⟩ := Fd.slot_command.1 hslot
    exact ⟨_, exec_feed_command b hst hh⟩
  | lenLo =>
    obtain ⟨hst, hh⟩ := Fd.slot_lenLo.1 hslot
    exact ⟨_, exec_feed_lenLo b hst hh⟩
  | lenHi =>
    obtain ⟨hst, hh⟩ := Fd.slot_lenHi.1 hslot
    exact ⟨_, exec_feed_lenHi b hst hh⟩
  | payload =>
    have hst := Fd.slot_payload.1 hslot
    exact ⟨_, (exec_feed_payload b hst).trans (takePayload_inside b (h.pcnt_lt_payloadCap hc hst))⟩
  | trailer =>
    have hfeed := exec_feed_trailer b (Fd.slot_trailer.1 hslot)
    rcases Nat.lt_or_eq_of_le (Nat.succ_le_of_lt h.tcnt_lt) with hl | hl
    · exact ⟨_, hfeed.trans (takeTrailer_more b hl)⟩
    · exact ⟨_, hfeed.trans (takeTrailer_last b hl)⟩
  | terminator => rw [exec_feed_terminator b (Fd.slot_terminator.1 hslot)]; split <;> exact ⟨_, rfl⟩

end Sys2Proof.Machine
end

section
/-!
The decoder's registers as the tagged union of R31: each rule is the union's own `feed`, so what is void is never seen.
-/

namespace Sys2Proof.Machine

/-- Each rule on the registers is `feed` on the view, result and all. -/
theorem FeedRule.view_feed {c : Config} {fd fd' : Fd} {b : Byte} {r : Option Frame} (hr : FeedRule c fd b fd' r)
    (h : fd.Inv c) : (fd'.view c, r) = (fd.view c).feed c b := by
  cases hr with
  | head hst hb => simp [Fd.view, FdView.feed, hst, hb]
  | noise hst hb => simp [Fd.view, FdView.feed, hst, hb]
  | command hst hh => simp [Fd.view, FdView.feed, hst, hh]
  | lenLo hst hh => simp [Fd.view, FdView.feed, hst, hh]
  | lenHiZero hst hh hz =>
    obtain ⟨-, ht⟩ := (Fd.positionOk_header hst).1 h.position
    have hmake : U16.make b (U16.lowByte fd.len) = 0 := hz
    simp [Fd.view, FdView.feed, hst, FdView.begin, hh, hz, ht, hmake]
  | lenHiPayload hst hh hz =>
    obtain ⟨hp, -⟩ := (Fd.positionOk_header hst).1 h.position
    have hmake : ¬ U16.make b (U16.lowByte fd.len) = 0#16 := hz
    simp [Fd.view, FdView.feed, hst, FdView.begin, hh, hp, hmake, setLenHigh]
  | payloadLast hst hin hl =>
    obtain ⟨-, ht⟩ := (Fd.positionOk_payload hst).1 h.position
    have hpay : Memory.firstBytes (Memory.write fd.pay fd.pcnt.toNat b) fd.len.toNat =
        Memory.firstBytes fd.pay fd.pcnt.toNat ++ [b] := by
      rw [← hl, Memory.firstBytes_write_next]
    simp [Fd.view, FdView.feed, hst, ht, hl, hpay]
  | payloadMore hst hin hl =>
    obtain ⟨hlt, -⟩ := (Fd.positionOk_payload hst).1 h.position
    have hpay : Memory.firstBytes (Memory.write fd.pay fd.pcnt.toNat b) (fd.pcnt + 1).toNat =
        Memory.firstBytes fd.pay fd.pcnt.toNat ++ [b] := by
      rw [pcnt_succ_toNat hlt, Memory.firstBytes_write_next]
    simp only [Fd.view, FdView.feed, hst, hpay]
    simp [hl]
  | trailerLast hst hl =>
    have htrl : Memory.firstBytes (Memory.write fd.trl fd.tcnt b) c.trailerLen =
        Memory.firstBytes fd.trl fd.tcnt ++ [b] := by
      rw [← hl, Memory.firstBytes_write_next]
    simp [Fd.view, FdView.feed, hst, hl, htrl]
  | trailerMore hst hl =>
    simp [Fd.view, FdView.feed, hst, Nat.ne_of_lt hl, Memory.firstBytes_write_next]
  | emit hst hb => simp [Fd.view, FdView.feed, hst, hb, heldFrame]
  | wrongEnd hst hb => simp [Fd.view, FdView.feed, hst, hb]

/-- From the invariant, `feed` completes, keeps the invariant, and is `feed` on the view (R31). -/
theorem exec_feed_view {s : State} (hc : s.cfg.Legal) (h : s.fd.Inv s.cfg) (b : Byte) :
    ∃ fd' r, exec (.feed b) s = .next (s.after fd' s.mv (.feed r)) ∧ fd'.Inv s.cfg ∧
      (fd'.view s.cfg, r) = (s.fd.view s.cfg).feed s.cfg b := by
  obtain ⟨t, ht⟩ := exec_feed_completes hc h b
  obtain ⟨fd', r, hr, rfl⟩ := exec_feed_rule ht
  exact ⟨fd', r, ht, hr.keeps_inv h, hr.view_feed h⟩

/-- Settles O21, by the commuting square of each rule. -/
theorem registersRefineTaggedUnion : Obligations.RegistersRefineTaggedUnion := by
  refine ⟨fun s b hc h => ?_, fun s => ⟨_, rfl, rfl⟩, fun c => rfl⟩
  obtain ⟨fd', r, ht, -, hview⟩ := exec_feed_view hc h b
  exact ⟨_, r, ht, rfl, hview⟩

/-- Settles O22, by induction on the bytes: the view decides each result and the view after it, and both decoders keep the
invariant. -/
theorem voidRegistersAreUnobservable : Obligations.VoidRegistersAreUnobservable := by
  intro s t s' bs hcfg hc hs ht hview hfeed
  induction bs generalizing s t with
  | nil => cases hfeed; exact ⟨t, [], rfl, hview.symm, rfl, rfl⟩
  | cons b bs ih =>
    obtain ⟨fs, r, hsb, hfs, hvs⟩ := exec_feed_view hc hs b
    obtain ⟨ft, r', htb, hft, hvt⟩ := exec_feed_view (hcfg ▸ hc) ht b
    have hsame : (fs.view s.cfg, r) = (ft.view t.cfg, r') := by rw [hvs, hvt, hview, hcfg]
    obtain ⟨hfv, rfl⟩ := Prod.mk.inj hsame
    have hrest : feedAll (s.after fs s.mv (.feed r)) bs = .next s' := (execAll_cons hsb _).symm.trans hfeed
    obtain ⟨t', es, ht', hv, hes, het⟩ :=
      ih (s.after fs s.mv (.feed r)) (t.after ft t.mv (.feed r)) hcfg hc hfs hft hfv hrest
    exact ⟨t', es ++ [.feed r], (execAll_cons htb _).trans ht', hv, by simp [hes], by simp [het]⟩

end Sys2Proof.Machine
end

section
/-!
The smoother's invariant (10_state.md R37): an accepted sample and an emptied window keep it, every vote of it is a valid id
(R153), and its counts are those of the window.
-/

namespace Sys2Proof.Machine

/-! ## What the vote answers (R151) -/

theorem greatest_mem {ns : List Nat} (h : ns ≠ []) : greatest ns ∈ ns := by
  induction ns with
  | nil => exact absurd rfl h
  | cons n ns ih =>
    by_cases hns : ns = []
    · simp [hns, greatest]
    · rcases Nat.le_total n (greatest ns) with hle | hle
      · simp [greatest, Nat.max_eq_right hle, ih hns]
      · simp [greatest, Nat.max_eq_left hle]

/-- A list has a most recent id exactly if it has one at all, and it is one of the list. -/
theorem mostRecent_cases (last : Nat → Nat) (ks : List Nat) :
    (ks = [] ∧ mostRecent last ks = none) ∨ ∃ k ∈ ks, mostRecent last ks = some k := by
  induction ks with
  | nil => exact .inl ⟨rfl, rfl⟩
  | cons k ks ih =>
    obtain ⟨-, hnone⟩ | ⟨j, hj, hsome⟩ := ih
    · exact .inr ⟨k, List.mem_cons_self, by simp [mostRecent, hnone]⟩
    · by_cases hlt : last j < last k
      · exact .inr ⟨k, List.mem_cons_self, by simp [mostRecent, hsome, hlt]⟩
      · exact .inr ⟨j, List.mem_cons_of_mem _ hj, by simp [mostRecent, hsome, hlt]⟩

theorem lt_numIds_of_mem_tiedIds {c : Config} {mv : Mv} {k : Nat} (h : k ∈ tiedIds c mv) : k < c.numIds :=
  List.mem_range.1 (List.mem_filter.1 h).1

/-- Some id has the highest count. -/
theorem tiedIds_ne_nil {c : Config} (hK : 1 ≤ c.numIds) (mv : Mv) : tiedIds c mv ≠ [] := by
  have hne : (List.range c.numIds).map (Counters.read mv.cnt) ≠ [] := by
    simpa using Nat.ne_of_gt hK
  obtain ⟨k, hk, hread⟩ := List.mem_map.1 (greatest_mem hne)
  exact List.ne_nil_of_mem (List.mem_filter.2 ⟨hk, by simpa using hread⟩)

theorem vote_of_empty (c : Config) {mv : Mv} (h : mv.wlen = 0) : vote c mv = .noSignal := if_pos h

/-- A window that holds anything resolves to an id below K. -/
theorem vote_of_nonempty {c : Config} (hc : c.Legal) {mv : Mv} (h : mv.wlen ≠ 0) :
    ∃ k < c.numIds, vote c mv = .signal (BitVec.ofNat 8 k) := by
  obtain ⟨-, ⟨hK, -⟩, -⟩ := hc
  obtain ⟨hnil, -⟩ | ⟨k, hk, hsome⟩ := mostRecent_cases (Counters.read mv.last) (tiedIds c mv)
  · exact absurd hnil (tiedIds_ne_nil hK mv)
  · exact ⟨k, lt_numIds_of_mem_tiedIds hk, by simp [vote, h, hsome]⟩

/-- An id below K is a byte, since K is at most 255 (R6). -/
theorem idValid_ofNat {c : Config} (hc : c.Legal) {k : Nat} (hk : k < c.numIds) : IdValid c (BitVec.ofNat 8 k) := by
  obtain ⟨-, ⟨-, hK, -⟩, -⟩ := hc
  show (BitVec.ofNat 8 k).toNat < c.numIds
  rw [BitVec.toNat_ofNat]
  omega

/-- R153(f): a resolved id is valid. -/
theorem vote_valid {c : Config} (hc : c.Legal) (mv : Mv) : ResolutionValid c (vote c mv) := by
  by_cases h : mv.wlen = 0
  · rw [vote_of_empty c h]; trivial
  · obtain ⟨k, hk, hv⟩ := vote_of_nonempty hc h
    rw [hv]; exact idValid_ofNat hc hk

/-- R157: an early decision is a signal, and its id is valid. -/
theorem acceptResult_valid {c : Config} (hc : c.Legal) (mv : Mv) (id : Byte) :
    Event.Valid c (.sample (acceptResult c mv id)) := by
  unfold acceptResult
  split
  · obtain ⟨k, -, hv⟩ := vote_of_nonempty hc (mv := mv.accept id) (Nat.succ_ne_zero _)
    exact ⟨by simp [hv], vote_valid hc _⟩
  · trivial

/-! ## What keeps the invariant -/

/-- An accepted sample is appended to the window (R157). -/
theorem Mv.accept_window (mv : Mv) (id : Byte) : (mv.accept id).window = mv.window ++ [id] :=
  Memory.firstBytes_write_next _ _ _

/-- Writing inside its range keeps a counter file canonical and in range. -/
theorem Counters.write_keeps_range {m : Counters} {bound k : Nat} (v : Nat)
    (hm : Counters.wf m = true ∧ Cells.below bound m = true) (hk : k < bound) :
    Counters.wf (Counters.write m k v) = true ∧ Cells.below bound (Counters.write m k v) = true :=
  ⟨Counters.wf_write k v hm.1, Cells.below_write v hm.2 hk⟩

/-- With an empty window and every count 0 the invariant asks for nothing but the ranges of the stale cells. -/
theorem Mv.inv_of_empty {c : Config} {mv : Mv} (hw : mv.wlen = 0) (hcnt : mv.cnt = [])
    (hlast : ∀ k, Counters.read mv.last k < c.windowCap)
    (hwin : Memory.wf mv.win = true ∧ Cells.below c.windowCap mv.win = true)
    (hlwf : Counters.wf mv.last = true ∧ Cells.below c.numIds mv.last = true) : mv.Inv c where
  wlen_le := hw ▸ Nat.zero_le _
  valid i hi := absurd (hw ▸ hi) (Nat.not_lt_zero i)
  counts k _ := by simp [hcnt, Mv.window, hw]
  lasts k _ hpos := by simp [hcnt] at hpos
  last_range := hlast
  win_wf := hwin
  cnt_wf := hcnt ▸ ⟨rfl, rfl⟩
  last_wf := hlwf

/-- R159 keeps the invariant. -/
theorem Mv.Inv.emptied {c : Config} {mv : Mv} (h : mv.Inv c) : mv.emptied.Inv c :=
  Mv.inv_of_empty rfl rfl h.last_range h.win_wf h.last_wf

/-- R157 keeps the invariant: the new entry is the last occurrence of its id, and every other id keeps count and index. -/
theorem Mv.Inv.accept {c : Config} {mv : Mv} (h : mv.Inv c) {id : Byte} (hid : IdValid c id)
    (hroom : mv.wlen < c.windowCap) : (mv.accept id).Inv c := by
  have hnew : Memory.read (mv.accept id).win mv.wlen = id := Memory.read_write_same _ _ _
  have hold : ∀ i < mv.wlen, Memory.read (mv.accept id).win i = Memory.read mv.win i :=
    fun i hi => Memory.read_write_other _ (Nat.ne_of_lt hi) _
  have hcntOther : ∀ {k}, k ≠ id.toNat → Counters.read (mv.accept id).cnt k = Counters.read mv.cnt k :=
    fun hk => by rw [Mv.accept_cnt, Counters.read_write_other _ hk]
  have hlastOther : ∀ {k}, k ≠ id.toNat → Counters.read (mv.accept id).last k = Counters.read mv.last k :=
    fun hk => by rw [Mv.accept_last, Counters.read_write_other _ hk]
  have hlastNew : Counters.read (mv.accept id).last id.toNat = mv.wlen := Counters.read_write_same _ _ _
  refine ⟨hroom, fun i hi => ?_, fun k hk => ?_, fun k hk hpos => ?_, fun k => ?_,
    Memory.write_keeps_range id h.win_wf hroom,
    Counters.write_keeps_range (Counters.read mv.cnt id.toNat + 1) h.cnt_wf hid,
    Counters.write_keeps_range mv.wlen h.last_wf hid⟩
  · rcases Nat.lt_succ_iff_lt_or_eq.1 hi with hi | rfl
    · rw [hold i hi]; exact h.valid i hi
    · rw [hnew]; exact hid
  · rw [Mv.accept_window, List.countP_append, ← h.counts k hk]
    by_cases hk' : k = id.toNat
    · subst hk'; simp
    · rw [hcntOther hk']; simp [Ne.symm hk']
  · by_cases hk' : k = id.toNat
    · subst hk'
      rw [hlastNew, hnew]
      exact ⟨Nat.lt_succ_self _, rfl, fun i hi _ => Nat.le_of_lt_succ hi⟩
    · rw [hcntOther hk'] at hpos
      obtain ⟨hlt, hat, hmax⟩ := h.lasts k hk hpos
      rw [hlastOther hk', hold _ hlt]
      refine ⟨Nat.lt_succ_of_lt hlt, hat, fun i hi hik => ?_⟩
      rcases Nat.lt_succ_iff_lt_or_eq.1 hi with hi | rfl
      · exact hmax i hi (hold i hi ▸ hik)
      · exact absurd (hnew ▸ hik).symm hk'
  · by_cases hk' : k = id.toNat
    · subst hk'; rw [hlastNew]; exact hroom
    · rw [hlastOther hk']; exact h.last_range k

/-! ## The counts of a window (R37(d) and (f)) -/

theorem countP_toNat_lt_succ (ids : List Byte) (n : Nat) :
    (ids.countP fun id => decide (id.toNat < n + 1)) =
      (ids.countP fun id => decide (id.toNat < n)) + ids.countP fun id => decide (id.toNat = n) := by
  induction ids with
  | nil => rfl
  | cons id ids ih =>
    simp only [List.countP_cons, decide_eq_true_eq, ih]
    rcases Nat.lt_trichotomy id.toNat n with h | h | h
    · rw [if_pos (Nat.lt_succ_of_lt h), if_pos h, if_neg (Nat.ne_of_lt h)]; omega
    · rw [if_pos (Nat.lt_succ_of_le (Nat.le_of_eq h)), if_neg (Nat.not_lt_of_le (Nat.le_of_eq h.symm)), if_pos h]; omega
    · rw [if_neg (Nat.not_lt_of_le h), if_neg (Nat.lt_asymm h), if_neg (Nat.ne_of_gt h)]; omega

/-- Counting the ids below `n` value by value counts each of them once. -/
theorem sum_countP_toNat_eq (ids : List Byte) (n : Nat) :
    ((List.range n).map fun k => ids.countP fun id => decide (id.toNat = k)).sum =
      ids.countP fun id => decide (id.toNat < n) := by
  induction n with
  | zero => exact (List.countP_eq_zero.2 fun id _ => by simp).symm
  | succ n ih =>
    rw [List.range_succ, List.map_append, List.sum_append, ih, countP_toNat_lt_succ]
    rfl

/-- If every id is below `n`, the counts add up to the length. -/
theorem sum_countP_toNat {ids : List Byte} {n : Nat} (h : ∀ id ∈ ids, id.toNat < n) :
    ((List.range n).map fun k => ids.countP fun id => decide (id.toNat = k)).sum = ids.length :=
  (sum_countP_toNat_eq ids n).trans (List.countP_eq_length.2 fun id hid => decide_eq_true (h id hid))

/-- Every entry of the window is a valid id (R37(b)). -/
theorem Mv.Inv.window_valid {c : Config} {mv : Mv} (h : mv.Inv c) : ∀ id ∈ mv.window, IdValid c id := by
  intro id hid
  obtain ⟨i, hi, rfl⟩ := List.mem_map.1 hid
  exact h.valid i (List.mem_range.1 hi)

/-- Settles O41: the counts partition the window, and the entry at a last occurrence is the id itself. -/
theorem countsAddUpToWindow : Obligations.CountsAddUpToWindow := by
  intro c mv h
  refine ⟨?_, fun k hk => ?_, fun j k hj hk hne hjpos hkpos heq => hne ?_⟩
  · rw [List.map_congr_left fun k hk => h.counts k (List.mem_range.1 hk), sum_countP_toNat h.window_valid]
    exact Memory.firstBytes_length _ _
  · calc Counters.read mv.cnt k = mv.window.countP fun id => decide (id.toNat = k) := h.counts k hk
      _ ≤ mv.window.length := List.countP_le_length
      _ = mv.wlen := Memory.firstBytes_length _ _
      _ ≤ c.windowCap := h.wlen_le
  · obtain ⟨-, hatj, -⟩ := h.lasts j hj hjpos
    obtain ⟨-, hatk, -⟩ := h.lasts k hk hkpos
    rw [← hatj, heq, hatk]

end Sys2Proof.Machine
end

section
/-!
Which registers a `feed` or a BYTE row leaves as they were (R101 to R108), and which of them ends a frame (R32).
-/

namespace Sys2Proof.Machine

/-! ## BYTE rows are feeds (R88, R100) -/

/-- The row that the table selects for a byte does what `feed` of the byte does. -/
theorem exec_decodeByte (s : State) (b : Byte) : exec (decodeByte s.cfg s.fd.slot b) s = exec (.feed b) s := by
  cases hslot : s.fd.slot with
  | waitStart =>
    rw [exec_feed_waitStart b (Fd.slot_waitStart.1 hslot)]
    by_cases hb : b = s.cfg.head
    · simp only [decodeByte, if_pos hb]; exact whenSelected_of hslot _
    · simp only [decodeByte, if_neg hb]; exact whenSelected_of ⟨hslot, hb⟩ _
  | command =>
    obtain ⟨hst, hh⟩ := Fd.slot_command.1 hslot
    exact (whenSelected_of hslot _).trans (exec_feed_command b hst hh).symm
  | lenLo =>
    obtain ⟨hst, hh⟩ := Fd.slot_lenLo.1 hslot
    exact (whenSelected_of hslot _).trans (exec_feed_lenLo b hst hh).symm
  | lenHi =>
    obtain ⟨hst, hh⟩ := Fd.slot_lenHi.1 hslot
    exact (whenSelected_of hslot _).trans (exec_feed_lenHi b hst hh).symm
  | payload => exact (whenSelected_of hslot _).trans (exec_feed_payload b (Fd.slot_payload.1 hslot)).symm
  | trailer => exact (whenSelected_of hslot _).trans (exec_feed_trailer b (Fd.slot_trailer.1 hslot)).symm
  | terminator =>
    rw [exec_feed_terminator b (Fd.slot_terminator.1 hslot)]
    by_cases hb : b = s.cfg.endMark
    · simp only [decodeByte, if_pos hb]; exact whenSelected_of hslot _
    · simp only [decodeByte, if_neg hb]; exact whenSelected_of ⟨hslot, hb⟩ _

/-- A BYTE row that completes is the one the table selects for some byte. -/
theorem byteRow_next_eq_decodeByte {i : Instr} {s t : State} (hi : i.slot? ≠ none) (h : exec i s = .next t) :
    ∃ b, i = decodeByte s.cfg s.fd.slot b := by
  cases i with
  | feedWaitStartHead => exact ⟨s.cfg.head, by simp [decodeByte, (whenSelected_next h).1]⟩
  | feedTerminatorEnd => exact ⟨s.cfg.endMark, by simp [decodeByte, (whenSelected_next h).1]⟩
  | feedWaitStartOther b | feedTerminatorOther b =>
    obtain ⟨⟨hslot, hb⟩, -⟩ := whenSelected_next h
    exact ⟨b, by simp [decodeByte, hslot, hb]⟩
  | feedHeaderCmd b | feedHeaderLenLo b | feedHeaderLenHi b | feedPayload b | feedTrailer b =>
    exact ⟨b, by simp [decodeByte, (whenSelected_next h).1]⟩
  | _ => exact absurd rfl hi

/-- Every `FD` instruction that completes is `fd_nop`, `reset`, or the `feed` of a byte, by itself or by the byte's row. -/
theorem exec_fd_next_feed {i : Instr} {s t : State} (hi : unitOf i = .fd) (h : exec i s = .next t) :
    (i = .fdNop ∧ t = s) ∨ (i = .reset ∧ t = s.after s.fd.toWaitStart s.mv .reset) ∨
      ∃ b, (i = .feed b ∨ i = decodeByte s.cfg s.fd.slot b) ∧ exec (.feed b) s = .next t := by
  by_cases hs : i.slot? = none
  · cases i with
    | fdNop => cases h; exact .inl ⟨rfl, rfl⟩
    | reset => cases h; exact .inr (.inl ⟨rfl, rfl⟩)
    | feed b => exact .inr (.inr ⟨b, .inl rfl, h⟩)
    | fdReserved => cases h
    | mvNop | sample _ | evaluate | clear => cases hi
    | extractKeypoint _ | extractClassification _ | extractDetection _ | extractReserved _ => cases hi
    | _ => cases hs
  · obtain ⟨b, rfl⟩ := byteRow_next_eq_decodeByte hs h
    exact .inr (.inr ⟨b, .inr rfl, (exec_decodeByte s b).symm.trans h⟩)

/-! ## What each rule leaves unchanged -/

section
variable {c : Config} {fd fd' : Fd} {b : Byte} {r : Option Frame}

theorem FeedRule.cmd_eq (hr : FeedRule c fd b fd' r) (h : fd.slot ≠ .command) : fd'.cmd = fd.cmd := by
  cases hr with
  | command hst hh => exact absurd (Fd.slot_command.2 ⟨hst, hh⟩) h
  | _ => rfl

theorem FeedRule.lenLow_eq (hr : FeedRule c fd b fd' r) (h : fd.slot ≠ .lenLo) :
    U16.lowByte fd'.len = U16.lowByte fd.len := by
  cases hr with
  | lenLo hst hh => exact absurd (Fd.slot_lenLo.2 ⟨hst, hh⟩) h
  | lenHiZero | lenHiPayload => exact setLenHigh_low fd.len b
  | _ => rfl

theorem FeedRule.lenHigh_eq (hr : FeedRule c fd b fd' r) (h : fd.slot ≠ .lenHi) :
    U16.highByte fd'.len = U16.highByte fd.len := by
  cases hr with
  | lenLo => exact setLenLow_high fd.len b
  | lenHiZero hst hh | lenHiPayload hst hh => exact absurd (Fd.slot_lenHi.2 ⟨hst, hh⟩) h
  | _ => rfl

theorem FeedRule.pcnt_eq (hr : FeedRule c fd b fd' r) (hw : fd.slot ≠ .waitStart) (hp : fd.slot ≠ .payload) :
    fd'.pcnt = fd.pcnt := by
  cases hr with
  | head hst => exact absurd (Fd.slot_waitStart.2 hst) hw
  | payloadLast hst | payloadMore hst => exact absurd (Fd.slot_payload.2 hst) hp
  | _ => rfl

theorem FeedRule.tcnt_eq (hr : FeedRule c fd b fd' r) (hw : fd.slot ≠ .waitStart) (ht : fd.slot ≠ .trailer) :
    fd'.tcnt = fd.tcnt := by
  cases hr with
  | head hst => exact absurd (Fd.slot_waitStart.2 hst) hw
  | trailerMore hst => exact absurd (Fd.slot_trailer.2 hst) ht
  | _ => rfl

theorem FeedRule.pay_eq (hr : FeedRule c fd b fd' r) {a : Nat} (h : fd.slot = .payload → a ≠ fd.pcnt.toNat) :
    Memory.read fd'.pay a = Memory.read fd.pay a := by
  cases hr with
  | payloadLast hst | payloadMore hst => exact Memory.read_write_other _ (h (Fd.slot_payload.2 hst)) b
  | _ => rfl

theorem FeedRule.trl_eq (hr : FeedRule c fd b fd' r) {a : Nat} (h : fd.slot = .trailer → a ≠ fd.tcnt) :
    Memory.read fd'.trl a = Memory.read fd.trl a := by
  cases hr with
  | trailerLast hst | trailerMore hst => exact Memory.read_write_other _ (h (Fd.slot_trailer.2 hst)) b
  | _ => rfl

/-- Of the rules only R107 ends a frame in progress. -/
theorem FeedRule.emits_of_leaves (hr : FeedRule c fd b fd' r) (hst : fd.st ≠ .waitStart) (hend : fd'.st = .waitStart) :
    fd.st = .terminator ∧ b = c.endMark := by
  cases hr with
  | emit ht hb => exact ⟨ht, hb⟩
  | head hw | noise hw => exact absurd hw hst
  | command | lenLo | payloadMore | trailerMore | wrongEnd => exact absurd hend hst
  | lenHiZero | lenHiPayload | payloadLast | trailerLast => cases hend

end

/-- Settles O12: each rule writes only its own registers, whether or not the others are live after it. -/
theorem feedKeepsOtherRegisters : Obligations.FeedKeepsOtherRegisters := by
  intro s t b i hi h
  have hfeed : exec (.feed b) s = .next t := by
    rcases hi with rfl | rfl
    · exact h
    · exact (exec_decodeByte s b).symm.trans h
  obtain ⟨fd', r, hr, rfl⟩ := exec_feed_rule hfeed
  exact ⟨rfl, rfl, rfl, rfl, fun hc _ => hr.cmd_eq hc, fun hl _ => hr.lenLow_eq hl, fun hl _ => hr.lenHigh_eq hl,
    fun hw hp _ => hr.pcnt_eq hw hp, fun hw ht _ => hr.tcnt_eq hw ht, fun _ _ ha => hr.pay_eq ha,
    fun _ _ ha => hr.trl_eq ha⟩

/-- Settles O24: `MV` and `SX` leave `FD` alone, and of the decoder's own instructions only `reset` and R107 end a frame. -/
theorem onlyResetOrEndLeavesFrame : Obligations.OnlyResetOrEndLeavesFrame := by
  intro i s t h hst hend
  obtain ⟨-, -, -, hfd, -⟩ := unitsKeepToTheirRegisters i s t h
  by_cases hu : unitOf i = .fd
  · obtain ⟨-, rfl⟩ | ⟨hi, -⟩ | ⟨b, hi, hfeed⟩ := exec_fd_next_feed hu h
    · exact absurd hend hst
    · exact .inl hi
    · obtain ⟨fd', r, hr, rfl⟩ := exec_feed_rule hfeed
      obtain ⟨hterm, rfl⟩ := hr.emits_of_leaves hst hend
      rw [Fd.slot_terminator.2 hterm] at hi
      exact .inr ⟨hterm, hi.imp_right fun hi => hi.trans (if_pos rfl)⟩
  · exact absurd (hfd hu ▸ hend) hst

end Sys2Proof.Machine
end

section
/-!
What every step keeps: the configuration (R39, R214) and the invariant of the machine (R30, R37, R63), which holds after
power-on; and the values the resets leave (R42).
-/

namespace Sys2Proof.Machine

/-! ## What a step can do (R10, R85, R210) -/

/-- A step that answers a next state performs the next stimulus, if there is one. -/
theorem step_next {s t : State} (h : step s = .next t) :
    t = s ∨ ∃ x rest, perform x (s.setPending rest) = .next t := by
  cases hp : s.pending with
  | nil => simp only [step, hp] at h; cases h; exact .inl rfl
  | cons x rest =>
    by_cases hc : s.cfg.Legal
    · exact .inr ⟨x, rest, (step_eq_perform hp hc).symm.trans h⟩
    · rw [step_of_not_legal hp hc] at h; cases h

/-- An edge that answers a next state is a hardware reset, or performs two instructions and sets the pulses (R85, R187). -/
theorem clockEdge_next {rst : Bool} {v w : OpWord} {s t : State} (h : clockEdge rst v w s = .next t) :
    (∃ p : Port, p.res = none ∧ t = s.hardwareReset.setPort p) ∨
      ∃ i j a b, exec i s = .next a ∧ exec j a = .next b ∧ t = b.setPort (pulsesAfter s a b i j) := by
  cases rst with
  | true => cases h; exact .inl ⟨_, rfl, rfl⟩
  | false =>
    cases ha : exec (decodeFdWord v) s with
    | next a =>
      cases hb : exec (decodeMvWord w) a with
      | next b =>
        simp only [clockEdge, ha, hb, Bool.false_eq_true, if_false] at h
        cases h; exact .inr ⟨_, _, a, b, ha, hb, rfl⟩
      | fault r => cases r
      | refused r => simp [clockEdge, ha, hb] at h
    | fault r => cases r
    | refused r => simp [clockEdge, ha] at h

/-- A stimulus that completes is an instruction, a hardware reset, or an edge that performs two instructions. -/
theorem perform_next {x : Stimulus} {s t : State} (h : perform x s = .next t) :
    (∃ i, exec i s = .next t) ∨ (∃ p : Port, p.res = none ∧ t = s.hardwareReset.setPort p) ∨
      ∃ i j a b, exec i s = .next a ∧ exec j a = .next b ∧ t = b.setPort (pulsesAfter s a b i j) := by
  cases x with
  | op i =>
    cases hd : decodeIn s i with
    | ok instr => exact .inl ⟨instr, (perform_op_ok hd).symm.trans h⟩
    | error e => rw [perform_op_error hd] at h; cases h
  | edge rst v w => exact .inr (clockEdge_next h)
  | hardwareReset => cases h; exact .inr (.inl ⟨s.hardwareReset.port, rfl, rfl⟩)

/-! ## The configuration -/

theorem exec_cfg {i : Instr} {s t : State} (h : exec i s = .next t) : t.cfg = s.cfg :=
  (unitsKeepToTheirRegisters i s t h).1

theorem perform_cfg {x : Stimulus} {s t : State} (h : perform x s = .next t) : t.cfg = s.cfg := by
  obtain ⟨i, hi⟩ | ⟨p, -, rfl⟩ | ⟨i, j, a, b, ha, hb, rfl⟩ := perform_next h
  · exact exec_cfg hi
  · rfl
  · exact (exec_cfg hb).trans (exec_cfg ha)

/-- Settles O46: no instruction, no reset and no pulse writes the configuration. -/
theorem configurationNeverChanges : Obligations.ConfigurationNeverChanges := by
  intro s t h
  obtain rfl | ⟨x, rest, hx⟩ := step_next h
  · rfl
  · exact perform_cfg (s := s.setPending rest) hx

/-! ## What keeps the invariant -/

/-- A completed operation keeps the invariant if its registers, its result and the hand-off after it are as they should be. -/
theorem State.Inv.after {s : State} (h : s.Inv) {fd : Fd} {mv : Mv} {e : Event} (hfd : fd.Inv s.cfg)
    (hmv : mv.Inv s.cfg) (he : e.Valid s.cfg) (hh : (s.after fd mv e).HandOff) : (s.after fd mv e).Inv where
  legal := h.legal
  fd := hfd
  mv := hmv
  events := List.forall_mem_cons.2 ⟨he, h.events⟩
  shown := h.shown
  handOff := hh

theorem State.Inv.setPending {s : State} (h : s.Inv) (q : List Stimulus) : (s.setPending q).Inv :=
  ⟨h.legal, h.fd, h.mv, h.events, h.shown, h.handOff⟩

theorem State.Inv.setPort {s : State} (h : s.Inv) {p : Port} (hp : ∀ r, p.res = some r → ResolutionValid s.cfg r) :
    (s.setPort p).Inv :=
  ⟨h.legal, h.fd, h.mv, h.events, hp, h.handOff⟩

theorem State.Inv.hardwareReset {s : State} (h : s.Inv) : s.hardwareReset.Inv where
  legal := h.legal
  fd := h.fd.toWaitStart
  mv := h.mv.emptied
  events := List.forall_mem_cons.2 ⟨trivial, h.events⟩
  shown := nofun
  handOff := nofun

/-- R9, R30(e): the frame a decoder emits has its length, its trailer and END. -/
theorem heldFrame_wellFormed (c : Config) (fd : Fd) : (heldFrame c fd).WellFormed c :=
  ⟨Memory.firstBytes_length _ _, Memory.firstBytes_length _ _, rfl⟩

theorem FeedRule.result_valid {c : Config} {fd fd' : Fd} {b : Byte} {r : Option Frame} (hr : FeedRule c fd b fd' r) :
    Event.Valid c (.feed r) := by
  cases hr with
  | emit => exact heldFrame_wellFormed c fd
  | _ => trivial

/-- R63: after R107 the registers still hold the frame it returned; after any other rule no frame is in place. -/
theorem FeedRule.handOff {s : State} {fd' : Fd} {b : Byte} {r : Option Frame} (hr : FeedRule s.cfg s.fd b fd' r) :
    (s.after fd' s.mv (.feed r)).HandOff := by
  cases hr with
  | emit => exact fun _ => ⟨rfl, rfl⟩
  | _ => exact nofun

/-- Every instruction keeps the invariant. What is no feed and no reset leaves the hand-off as it was, since neither
`frameInPlace` nor `returnedFrame` looks at its result. -/
theorem exec_keeps_inv {i : Instr} {s t : State} (h : s.Inv) (ht : exec i s = .next t) : t.Inv := by
  cases hu : unitOf i with
  | fd =>
    obtain ⟨-, rfl⟩ | ⟨-, rfl⟩ | ⟨b, -, hfeed⟩ := exec_fd_next_feed hu ht
    · exact h
    · exact h.after h.fd.toWaitStart h.mv trivial nofun
    · obtain ⟨fd', r, hr, rfl⟩ := exec_feed_rule hfeed
      exact h.after (hr.keeps_inv h.fd) h.mv hr.result_valid hr.handOff
  | mv =>
    obtain ⟨-, rfl⟩ | ⟨-, rfl⟩ | ⟨-, rfl⟩ | ⟨id, -, -, rfl, -⟩ := exec_mv_next hu ht
    · exact h
    · exact h.after h.fd h.mv (vote_valid h.legal s.mv) h.handOff
    · exact h.after h.fd h.mv.emptied trivial h.handOff
    · obtain ⟨-, rfl⟩ | ⟨hid, hroom, rfl⟩ := exec_sample_next ht
      · exact h.after h.fd h.mv trivial h.handOff
      · exact h.after h.fd (h.mv.accept hid hroom) (acceptResult_valid h.legal s.mv id) h.handOff
  | sx =>
    obtain ⟨cs, rfl⟩ := exec_sx_next hu ht
    exact h.after h.fd h.mv trivial h.handOff

/-- The resolution shown by the pulse `res_valid` is that of the last result, so it is valid if the results are. -/
theorem resolvedBy_valid {s : State} (h : s.Inv) {i : Instr} {r : Resolution} (hr : resolvedBy i s = some r) :
    ResolutionValid s.cfg r := by
  unfold resolvedBy at hr
  split at hr
  · next heq =>
    subst hr
    exact (h.events (.sample (some r)) (heq ▸ List.mem_cons_self)).2
  · next heq =>
    cases hr
    exact h.events (.evaluate r) (heq ▸ List.mem_cons_self)
  · cases hr

theorem perform_keeps_inv {x : Stimulus} {s t : State} (h : s.Inv) (ht : perform x s = .next t) : t.Inv := by
  obtain ⟨i, hi⟩ | ⟨p, hp, rfl⟩ | ⟨i, j, a, b, ha, hb, rfl⟩ := perform_next ht
  · exact exec_keeps_inv h hi
  · exact h.hardwareReset.setPort fun r hr => nomatch hp.symm.trans hr
  · have hinv := exec_keeps_inv (exec_keeps_inv h ha) hb
    exact hinv.setPort fun r hr => resolvedBy_valid hinv hr

/-- Settles O47, by what each stimulus keeps. -/
theorem stepKeepsInvariant : Obligations.StepKeepsInvariant := by
  intro s t h ht
  obtain rfl | ⟨x, rest, hx⟩ := step_next ht
  · exact h
  · exact perform_keeps_inv (h.setPending rest) hx

/-! ## After power-on and after the resets -/

theorem Fd.reset_inv {c : Config} (hc : c.Legal) : Fd.reset.Inv c := by
  obtain ⟨-, -, -, -, -, -, -, htrl⟩ := hc
  exact ⟨⟨rfl, rfl⟩, ⟨rfl, rfl⟩, htrl, trivial⟩

theorem Mv.reset_inv {c : Config} (hc : c.Legal) : Mv.reset.Inv c :=
  Mv.inv_of_empty rfl rfl (fun _ => hc.1.1) ⟨rfl, rfl⟩ ⟨rfl, rfl⟩

theorem State.resetFor_inv {c : Config} (hc : c.Legal) : (State.resetFor c).Inv where
  legal := hc
  fd := Fd.reset_inv hc
  mv := Mv.reset_inv hc
  events := nofun
  shown := nofun
  handOff := nofun

/-- Settles O48. -/
theorem resetMeetsInvariant : Obligations.ResetMeetsInvariant :=
  ⟨fun _ hc => State.resetFor_inv hc, State.resetFor_inv (by decide)⟩

/-- In WAIT_START nothing of the decoder is live and the status outputs say so (R29, R38). -/
theorem fdAfterReset_of_waitStart {s : State} (h : s.fd.st = .waitStart) : FdAfterReset s :=
  ⟨h, by simp [Fd.view, h], by simp [fdState, FdSt.code, h], by simp [fdBusy, h]⟩

/-- With no entry and no count the window is empty, and, since N ≥ 1, not full (R34, R38). -/
theorem mvAfterReset_of_empty {s : State} (hN : 1 ≤ s.cfg.windowCap) (hw : s.mv.wlen = 0) (hc : s.mv.cnt = []) :
    MvAfterReset s := by
  have hfull : 0 ≠ s.cfg.windowCap := (Nat.ne_of_gt hN).symm
  exact ⟨hw, by simp [Mv.window, hw], fun k _ => by simp [hc], hw, by simp [mvEmpty, hw], by simp [mvFull, hw, hfull]⟩

/-- Settles O54: each reset leaves its unit in WAIT_START or empty, and the other unit as it was. -/
theorem resetValues : Obligations.ResetValues := by
  refine ⟨fun c hN => ⟨fdAfterReset_of_waitStart rfl, mvAfterReset_of_empty hN rfl rfl⟩, fun s hN => ⟨?_, ?_, ?_⟩⟩
  · exact ⟨s.hardwareReset, rfl, rfl, fdAfterReset_of_waitStart rfl, mvAfterReset_of_empty hN rfl rfl⟩
  · exact ⟨s.after s.fd.toWaitStart s.mv .reset, rfl, rfl, fdAfterReset_of_waitStart rfl, rfl⟩
  · exact ⟨s.after s.fd s.mv.emptied .clear, rfl, rfl, mvAfterReset_of_empty hN rfl rfl, rfl⟩

end Sys2Proof.Machine
end

section
/-!
Each unit reads its own registers only (20_memory.md R62): an instruction that completes completes in the same way in every
state with the same configuration and the same registers of its unit, whatever else that state holds. So an `FD` instruction
and an `MV` instruction may be exchanged.
-/

namespace Sys2Proof.Machine

/-- The state after operations that leave the registers `fd` and `mv` and give the environment the results `es`, newest
first. -/
def State.afterAll (s : State) (fd : Fd) (mv : Mv) (es : List Event) : State :=
  { s with fd := fd, mv := mv, events := es ++ s.events }

theorem State.afterAll_nil (s : State) : s.afterAll s.fd s.mv [] = s := rfl

theorem State.afterAll_singleton (s : State) (fd : Fd) (mv : Mv) (e : Event) :
    s.afterAll fd mv [e] = s.after fd mv e := rfl

/-! ## `FD` instructions -/

/-- The rule that applies to a byte is what `feed` of the byte does. -/
theorem FeedRule.exec_feed {s : State} {fd' : Fd} {b : Byte} {r : Option Frame} (hr : FeedRule s.cfg s.fd b fd' r) :
    exec (.feed b) s = .next (s.after fd' s.mv (.feed r)) := by
  cases hr with
  | head hst hb => rw [exec_feed_waitStart b hst, if_pos hb]; rfl
  | noise hst hb => rw [exec_feed_waitStart b hst, if_neg hb]; rfl
  | command hst hh => exact exec_feed_command b hst hh
  | lenLo hst hh => exact exec_feed_lenLo b hst hh
  | lenHiZero hst hh hz => rw [exec_feed_lenHi b hst hh, takeLenHi_eq, if_pos hz]
  | lenHiPayload hst hh hz => rw [exec_feed_lenHi b hst hh, takeLenHi_eq, if_neg hz]
  | payloadLast hst hin hl => rw [exec_feed_payload b hst, takePayload_inside b hin, if_pos hl]
  | payloadMore hst hin hl => rw [exec_feed_payload b hst, takePayload_inside b hin, if_neg hl]
  | trailerLast hst hl => exact (exec_feed_trailer b hst).trans (takeTrailer_last b hl)
  | trailerMore hst hl => exact (exec_feed_trailer b hst).trans (takeTrailer_more b hl)
  | emit hst hb => rw [exec_feed_terminator b hst, if_pos hb]; rfl
  | wrongEnd hst hb => rw [exec_feed_terminator b hst, if_neg hb]; rfl

/-- What an `FD` instruction does is decided by the configuration and the `FD` registers. -/
theorem exec_fd_local {i : Instr} {s t : State} (hi : unitOf i = .fd) (h : exec i s = .next t) :
    ∃ fd' es, ∀ u : State, u.cfg = s.cfg → u.fd = s.fd → exec i u = .next (u.afterAll fd' u.mv es) := by
  obtain ⟨rfl, -⟩ | ⟨rfl, -⟩ | ⟨b, hb, hfeed⟩ := exec_fd_next_feed hi h
  · exact ⟨s.fd, [], fun u _ hfd => by rw [← hfd, State.afterAll_nil]; rfl⟩
  · exact ⟨s.fd.toWaitStart, [.reset], fun u _ hfd => hfd ▸ rfl⟩
  · obtain ⟨fd', r, hr, -⟩ := exec_feed_rule hfeed
    refine ⟨fd', [.feed r], fun u hcfg hfd => ?_⟩
    rw [← hcfg, ← hfd] at hb hr
    rw [State.afterAll_singleton]
    obtain rfl | rfl := hb
    · exact hr.exec_feed
    · exact (exec_decodeByte u b).trans hr.exec_feed

/-! ## `MV` instructions -/

/-- R155, R156: an invalid id, or a full window, changes nothing. -/
theorem exec_sample_ignored {s : State} {id : Byte} (h : ¬ IdValid s.cfg id ∨ s.mv.wlen = s.cfg.windowCap) :
    exec (.sample id) s = .next (s.after s.fd s.mv (.sample none)) := by
  by_cases hv : IdValid s.cfg id
  · exact (if_pos hv).trans (if_pos (h.resolve_left (not_not_intro hv)))
  · exact if_neg hv

/-- R157. -/
theorem exec_sample_accepted {s : State} {id : Byte} (hv : IdValid s.cfg id) (hroom : s.mv.wlen < s.cfg.windowCap) :
    exec (.sample id) s = .next (s.after s.fd (s.mv.accept id) (.sample (acceptResult s.cfg s.mv id))) :=
  (if_pos hv).trans ((if_neg (Nat.ne_of_lt hroom)).trans (if_pos hroom))

/-- What an `MV` instruction does is decided by the configuration and the `MV` registers. -/
theorem exec_mv_local {j : Instr} {s t : State} (hj : unitOf j = .mv) (h : exec j s = .next t) :
    ∃ mv' es, ∀ u : State, u.cfg = s.cfg → u.mv = s.mv → exec j u = .next (u.afterAll u.fd mv' es) := by
  obtain ⟨rfl, -⟩ | ⟨rfl, -⟩ | ⟨rfl, -⟩ | ⟨id, -, -, rfl, -⟩ := exec_mv_next hj h
  · exact ⟨s.mv, [], fun u _ hmv => by rw [← hmv, State.afterAll_nil]; rfl⟩
  · exact ⟨s.mv, [.evaluate (vote s.cfg s.mv)], fun u hcfg hmv => hcfg ▸ hmv ▸ rfl⟩
  · exact ⟨s.mv.emptied, [.clear], fun u _ hmv => hmv ▸ rfl⟩
  · obtain ⟨hno, -⟩ | ⟨hv, hroom, -⟩ := exec_sample_next h
    · refine ⟨s.mv, [.sample none], fun u hcfg hmv => ?_⟩
      rw [← hcfg, ← hmv] at hno
      rw [← hmv, State.afterAll_singleton]
      exact exec_sample_ignored hno
    · refine ⟨s.mv.accept id, [.sample (acceptResult s.cfg s.mv id)], fun u hcfg hmv => ?_⟩
      rw [← hcfg] at hv
      rw [← hcfg, ← hmv] at hroom
      rw [← hcfg, ← hmv, State.afterAll_singleton]
      exact exec_sample_accepted hv hroom

/-- Settles O44: each of the two finds its own unit's registers and the configuration as in the other order, so it writes the
same registers and returns the same results. -/
theorem fdAndMvCommute : Obligations.FdAndMvCommute := by
  intro i j s a t hi hj ha ht
  obtain ⟨fd', ei, hfd⟩ := exec_fd_local hi ha
  obtain rfl : a = s.afterAll fd' s.mv ei := Host.Outcome.next.inj (ha.symm.trans (hfd s rfl rfl))
  obtain ⟨mv', ej, hmv⟩ := exec_mv_local hj ht
  obtain rfl := Host.Outcome.next.inj (ht.symm.trans (hmv _ rfl rfl))
  exact ⟨s.afterAll s.fd mv' ej, (s.afterAll s.fd mv' ej).afterAll fd' mv' ei, ei, ej, hmv s rfl rfl, hfd _ rfl rfl, rfl,
    (List.append_assoc ..).symm, rfl, (List.append_assoc ..).symm, rfl, rfl, rfl, rfl, rfl⟩

end Sys2Proof.Machine
end

section
/-!
The frame in place (20_memory.md R63): the outputs read it from the registers (30_encoding.md R85), and only an operation of the
decoder other than `fd_nop`, or a hardware reset, ends it.
-/

namespace Sys2Proof.Machine

/-! ## The outputs while a frame is in place (R85) -/

theorem portOut_frameCmd_inPlace {s : State} (h : frameInPlace s.events = true) : (portOut s).frameCmd = s.fd.cmd :=
  if_pos h

theorem portOut_frameLen_inPlace {s : State} (h : frameInPlace s.events = true) : (portOut s).frameLen = s.fd.len :=
  if_pos h

theorem portOut_frameTrl_inPlace {s : State} (h : frameInPlace s.events = true) :
    (portOut s).frameTrl = Memory.firstBytes s.fd.trl s.cfg.trailerLen :=
  List.map_congr_left fun _ _ => if_pos h

/-- `pay_rdata` shows the payload byte at every address below the length. -/
theorem payRdata_inPlace {s : State} (h : frameInPlace s.events = true) {i : Nat} (hi : i < s.fd.len.toNat) :
    payRdata s (BitVec.ofNat 16 i) = Memory.read s.fd.pay i := by
  have haddr : (BitVec.ofNat 16 i).toNat = i := Nat.mod_eq_of_lt (Nat.lt_trans hi s.fd.len.isLt)
  simp [payRdata, haddr, h, hi]

theorem heldFrame_payload_getElem? (c : Config) {fd : Fd} {i : Nat} (hi : i < fd.len.toNat) :
    (heldFrame c fd).payload[i]? = some (Memory.read fd.pay i) := by
  have hlen : i < (Memory.firstBytes fd.pay fd.len.toNat).length := (Memory.firstBytes_length _ _).symm ▸ hi
  exact (List.getElem?_eq_getElem hlen).trans (congrArg some (Memory.firstBytes_getElem _ hlen))

/-! ## How long a frame is in place (R63) -/

/-- R107 puts a frame in place. -/
theorem frameInPlace_of_feed_end {s t : State} (hst : s.fd.st = .terminator)
    (h : exec (.feed s.cfg.endMark) s = .next t) : frameInPlace t.events = true := by
  rw [FeedRule.exec_feed (.emit hst rfl)] at h
  cases h; rfl

/-- `fd_nop` and what is no `FD` instruction leave in place what is in place, and the result of the nearest `feed`. -/
theorem exec_keeps_frameInPlace {i : Instr} {s t : State} (hi : unitOf i ≠ .fd ∨ i = .fdNop) (h : exec i s = .next t) :
    frameInPlace t.events = frameInPlace s.events ∧ returnedFrame t.events = returnedFrame s.events := by
  cases hu : unitOf i with
  | fd =>
    obtain rfl := hi.resolve_left (not_not_intro hu)
    cases h; exact ⟨rfl, rfl⟩
  | mv => obtain ⟨-, rfl⟩ | ⟨-, rfl⟩ | ⟨-, rfl⟩ | ⟨_, _, _, -, rfl⟩ := exec_mv_next hu h <;> exact ⟨rfl, rfl⟩
  | sx => obtain ⟨_, rfl⟩ := exec_sx_next hu h; exact ⟨rfl, rfl⟩

theorem exec_keeps_fd {i : Instr} {s t : State} (hi : unitOf i ≠ .fd ∨ i = .fdNop) (h : exec i s = .next t) :
    t.fd = s.fd := by
  obtain hu | rfl := hi
  · obtain ⟨-, -, -, hfd, -⟩ := unitsKeepToTheirRegisters i s t h
    exact hfd hu
  · cases h; rfl

/-- Settles O56: by the hand-off of the invariant the frame returned is the one the registers hold, which the outputs
read. -/
theorem frameStaysInPlace : Obligations.FrameStaysInPlace := by
  refine ⟨fun s hs h => ?_, fun s t ht hst => frameInPlace_of_feed_end hst ht, fun i s t hi ht h => ?_⟩
  · obtain ⟨-, hret⟩ := hs.handOff h
    refine ⟨heldFrame s.cfg s.fd, hret, portOut_frameCmd_inPlace h, portOut_frameLen_inPlace h,
      portOut_frameTrl_inPlace h, fun i hi => ?_⟩
    rw [payRdata_inPlace h hi, heldFrame_payload_getElem? s.cfg hi]
  · obtain ⟨hin, hret⟩ := exec_keeps_frameInPlace hi ht
    exact ⟨hin.trans h, exec_keeps_fd hi ht, hret⟩

end Sys2Proof.Machine
end

section
/-!
The encodings read back (30_encoding.md): the operation words of both ports (R82, R83), the BYTE rows by position (R88), the
wire frame (R70 to R74) and the FRAME rows by command (R72).
-/

namespace Sys2Proof.Machine

/-! ## Operation words (R82, R83) -/

theorem decodeFdWord_make_zero (d : Byte) : decodeFdWord (OpWord.make 0 d) = .fdNop := by
  simp [decodeFdWord]

theorem decodeFdWord_make_one (d : Byte) : decodeFdWord (OpWord.make 1 d) = .feed d := by
  simp [decodeFdWord]

theorem decodeFdWord_make_two (d : Byte) : decodeFdWord (OpWord.make 2 d) = .reset := by
  simp [decodeFdWord]

theorem decodeFdWord_make_three (d : Byte) : decodeFdWord (OpWord.make 3 d) = .fdReserved := by
  simp [decodeFdWord]

theorem decodeMvWord_make_zero (d : Byte) : decodeMvWord (OpWord.make 0 d) = .mvNop := by
  simp [decodeMvWord]

theorem decodeMvWord_make_one (d : Byte) : decodeMvWord (OpWord.make 1 d) = .sample d := by
  simp [decodeMvWord]

theorem decodeMvWord_make_two (d : Byte) : decodeMvWord (OpWord.make 2 d) = .evaluate := by
  simp [decodeMvWord]

theorem decodeMvWord_make_three (d : Byte) : decodeMvWord (OpWord.make 3 d) = .clear := by
  simp [decodeMvWord]

/-- Settles O59: the two fields of a word are read back, and the operation field alone selects the operation. -/
theorem operandBitsOfOperationWords : Obligations.OperandBitsOfOperationWords := by
  intro d
  refine ⟨decodeFdWord_make_zero d, decodeFdWord_make_one d, decodeFdWord_make_two d, decodeFdWord_make_three d,
    decodeMvWord_make_zero d, decodeMvWord_make_one d, decodeMvWord_make_two d, decodeMvWord_make_three d,
    fun o => ?_, fun s => ?_⟩
  · rw [OpWord.make_toNat, Nat.add_comm]
  · rw [decodeFdWord_make_three]; rfl

/-! ## The wire frame (R70 to R74, R80) -/

/-- Trailer and END are read back. -/
theorem frameTail_append {c : Config} (cmd : Byte) (len : U16) (payload : List Byte) {trailer : List Byte}
    (h : trailer.length = c.trailerLen) :
    frameTail c cmd len payload (trailer ++ [c.endMark]) = .ok ⟨cmd, len, payload, trailer, c.endMark⟩ := by
  simp [frameTail, ← h]

/-- Nothing but a trailer and END is read after the payload. -/
theorem frameTail_ok {c : Config} {cmd : Byte} {len : U16} {payload tail : List Byte} {f : Frame}
    (h : frameTail c cmd len payload tail = .ok f) :
    ∃ trailer, trailer.length = c.trailerLen ∧ tail = trailer ++ [c.endMark] ∧
      f = ⟨cmd, len, payload, trailer, c.endMark⟩ := by
  unfold frameTail at h
  split at h
  · next e hdrop =>
    split at h
    · next he =>
      cases h; subst he
      have hlen : tail.length - c.trailerLen = 1 := by simpa using congrArg List.length hdrop
      exact ⟨tail.take c.trailerLen, by rw [List.length_take]; omega, by rw [← hdrop, List.take_append_drop], rfl⟩
    · cases h
  · cases h

/-- R70: the wire form of a well-formed frame is read as that frame. -/
theorem parseFrame_wire {c : Config} {f : Frame} (h : f.WellFormed c) : parseFrame c (f.wire c) = .ok f := by
  obtain ⟨cmd, len, payload, trailer, terminator⟩ := f
  obtain ⟨hpay, htrl, hend⟩ := h
  dsimp only at hpay htrl hend
  subst hend
  simp [Frame.wire, parseFrame, ← hpay, frameTail_append _ _ _ htrl]

/-- R74: nothing but the wire form of a well-formed frame is read as it. -/
theorem parseFrame_ok {c : Config} {bs : List Byte} {f : Frame} (h : parseFrame c bs = .ok f) :
    f.WellFormed c ∧ bs = f.wire c := by
  unfold parseFrame at h
  split at h
  · next hd cmd lo hi rest =>
    split at h
    · next hhead =>
      split at h
      · next hlen =>
        obtain ⟨trailer, htrl, htail, rfl⟩ := frameTail_ok h
        refine ⟨⟨List.length_take_of_le hlen, htrl, rfl⟩, ?_⟩
        simp [Frame.wire, hhead, ← htail]
      · cases h
    · cases h
  · cases h

/-- R74: the bytes of a frame on the wire that are not payload are those of HEAD, header, trailer and END. -/
theorem wire_length {c : Config} {f : Frame} (h : f.WellFormed c) (hc : c.headerLen = 3) :
    (f.wire c).length = c.frameOverhead + f.length.toNat := by
  obtain ⟨hpay, htrl, -⟩ := h
  simp only [Frame.wire, Config.frameOverhead, List.length_append, List.length_cons, List.length_nil]
  omega

/-- Settles O58: the wire form is read back, and nothing else is read. -/
theorem parseFrameIsExact : Obligations.ParseFrameIsExact :=
  ⟨fun _ _ _ => ⟨parseFrame_ok, fun ⟨hwf, hbs⟩ => hbs ▸ parseFrame_wire hwf⟩, fun _ _ => wire_length, rfl⟩

/-! ## The FRAME rows (R72, R130) -/

theorem decodeFrame_classification {c : Config} {f : Frame} (h : f.command = c.cmdClassification) :
    decodeFrame c f = .extractClassification f := if_pos h

theorem decodeFrame_detection {c : Config} (hc : c.Legal) {f : Frame} (h : f.command = c.cmdDetection) :
    decodeFrame c f = .extractDetection f := by
  obtain ⟨-, -, ⟨-, -, hne⟩, -⟩ := hc
  simp [decodeFrame, h, hne.symm]

theorem decodeFrame_keypoint {c : Config} (hc : c.Legal) {f : Frame} (h : f.command = c.cmdKeypoint) :
    decodeFrame c f = .extractKeypoint f := by
  obtain ⟨-, -, ⟨hcls, hdet, -⟩, -⟩ := hc
  simp [decodeFrame, h, hcls, hdet]

theorem decodeFrame_reserved {c : Config} {f : Frame} (h : c.Reserved f.command) :
    decodeFrame c f = .extractReserved f := by
  obtain ⟨hkey, hcls, hdet⟩ := h
  simp [decodeFrame, hkey, hcls, hdet]

/-! ## Decoding (R88, R100) -/

/-- The bytes of a well-formed frame stand for the row that its command selects. -/
theorem decode_wire {c : Config} (slot : ByteSlot) (returned : Option Frame) {f : Frame} (h : f.WellFormed c) :
    decode c slot returned (.frameBytes (f.wire c)) = .ok (decodeFrame c f) := by
  simp only [decode, parseFrame_wire h]

/-- A byte read at the position of the row it encodes stands for that row (R88). -/
theorem decode_encode_byteRow {c : Config} {slot : ByteSlot} (returned : Option Frame) {i : Instr} (hi : i.WellFormed c)
    (hslot : i.slot? = some slot) : decode c slot returned (encode c i) = .ok i := by
  cases i with
  | feedWaitStartHead | feedTerminatorEnd => cases hslot; exact congrArg Except.ok (if_pos rfl)
  | feedWaitStartOther _ | feedTerminatorOther _ => cases hslot; exact congrArg Except.ok (if_neg (of_decide_eq_true hi))
  | feedHeaderCmd _ | feedHeaderLenLo _ | feedHeaderLenHi _ | feedPayload _ | feedTrailer _ => cases hslot; rfl
  | _ => cases hslot

/-- Settles O57, row by row: a word gives its operation and operand back, a BYTE row is selected at its own position, and a
wire frame is read as itself and selects its row by its command. -/
theorem decodeOfEncode : Obligations.DecodeOfEncode := by
  intro c slot returned i hc hi hslot
  cases i with
  | fdNop => exact congrArg _ (decodeFdWord_make_zero 0)
  | feed b => exact congrArg _ (decodeFdWord_make_one b)
  | reset => exact congrArg _ (decodeFdWord_make_two 0)
  | fdReserved => exact congrArg _ (decodeFdWord_make_three 0)
  | mvNop => exact congrArg _ (decodeMvWord_make_zero 0)
  | sample id => exact congrArg _ (decodeMvWord_make_one id)
  | evaluate => exact congrArg _ (decodeMvWord_make_two 0)
  | clear => exact congrArg _ (decodeMvWord_make_three 0)
  | feedWaitStartHead | feedWaitStartOther _ | feedHeaderCmd _ | feedHeaderLenLo _ | feedHeaderLenHi _
  | feedPayload _ | feedTrailer _ | feedTerminatorEnd | feedTerminatorOther _ =>
    exact decode_encode_byteRow returned hi (congrArg some (hslot _ rfl))
  | extractKeypoint f =>
    obtain ⟨hwf, hcmd⟩ := of_decide_eq_true hi
    exact (decode_wire slot returned hwf).trans (congrArg _ (decodeFrame_keypoint hc hcmd))
  | extractClassification f =>
    obtain ⟨hwf, hcmd⟩ := of_decide_eq_true hi
    exact (decode_wire slot returned hwf).trans (congrArg _ (decodeFrame_classification hcmd))
  | extractDetection f =>
    obtain ⟨hwf, hcmd⟩ := of_decide_eq_true hi
    exact (decode_wire slot returned hwf).trans (congrArg _ (decodeFrame_detection hc hcmd))
  | extractReserved f =>
    obtain ⟨hwf, hcmd⟩ := of_decide_eq_true hi
    exact (decode_wire slot returned hwf).trans (congrArg _ (decodeFrame_reserved hcmd))

/-- Settles O60: each word is put together from its fields, and the bytes are the wire form of a well-formed frame. -/
theorem specWordsDecode : Obligations.SpecWordsDecode :=
  ⟨decodeFdWord_make_one 0xFD, decodeFdWord_make_two 0, decodeFdWord_make_zero 0, decodeMvWord_make_one 3,
    decodeMvWord_make_two 0, decodeMvWord_make_three 0, decodeMvWord_make_zero 0, rfl, rfl,
    congrArg (Except.map (decodeFrame .document)) (parseFrame_wire (c := .document)
      (f := ⟨1, 2, [0xFD, 0xED], [0xAA, 0xBB, 0xCC, 0xDD], 0xED⟩) (by decide))⟩

end Sys2Proof.Machine
end

section
/-!
Issues as steps (30_encoding.md R82, R86 to R88, R100): a word, a byte read through its row, the bytes of `feedn`, and the trace
line `extract`, each performed by the machine that takes it off what is pending.
-/

namespace Sys2Proof.Machine

/-- In a legal configuration a step performs what the issue stands for, taken off the pending list. -/
theorem step_op {s : State} {i : Issue} {rest : List Stimulus} {instr : Instr} (hp : s.pending = .op i :: rest)
    (hc : s.cfg.Legal) (hi : decodeIn s i = .ok instr) : step s = exec instr (s.setPending rest) :=
  (step_eq_perform hp hc).trans (perform_op_ok hi)

/-- A step at a word of the FD port performs its instruction (R82). -/
theorem step_fdWord {s : State} {w : OpWord} {rest : List Stimulus} (hp : s.pending = .op (.fdWord w) :: rest)
    (hc : s.cfg.Legal) : step s = exec (decodeFdWord w) (s.setPending rest) := step_op hp hc rfl

/-- Settles O11: every word with `fd_op` = 3 stands for the reserved operation. -/
theorem reservedFdOpIsRefused : Obligations.ReservedFdOpIsRefused := by
  refine fun s => ⟨rfl, fun d rest hc hp => ?_⟩
  rw [step_fdWord hp hc, decodeFdWord_make_three]
  rfl

/-! ## The BYTE rows (R88, R100) -/

/-- The row selected at a position belongs to it. -/
theorem decodeByte_slot (c : Config) (k : ByteSlot) (b : Byte) : (decodeByte c k b).slot? = some k := by
  cases k with
  | waitStart | terminator => simp only [decodeByte]; split <;> rfl
  | _ => rfl

/-- A BYTE row of another position is refused (log entry 8). -/
theorem exec_byteRow_not_selected {s : State} {i : Instr} {k : ByteSlot} (hi : i.slot? = some k) (hk : k ≠ s.fd.slot) :
    exec i s = .refused .byteRowNotSelected := by
  cases i with
  | feedWaitStartOther _ | feedTerminatorOther _ =>
    cases hi; exact whenSelected_of_not (fun h => hk h.1.symm) _
  | feedWaitStartHead | feedHeaderCmd _ | feedHeaderLenLo _ | feedHeaderLenHi _ | feedPayload _ | feedTrailer _
  | feedTerminatorEnd =>
    cases hi; exact whenSelected_of_not hk.symm _
  | _ => cases hi

/-- Settles O14. -/
theorem byteRowsAreFeedByPosition : Obligations.ByteRowsAreFeedByPosition :=
  ⟨fun s b => ⟨(exec_decodeByte s b).symm, decodeByte_slot ..⟩, fun _ _ _ => exec_byteRow_not_selected⟩

/-! ## The bytes of `feedn` (R87) -/

/-- `feed` neither reads nor writes what is pending. -/
theorem exec_feed_setPending {s t : State} {b : Byte} (h : exec (.feed b) s = .next t) (q : List Stimulus) :
    exec (.feed b) (s.setPending q) = .next (t.setPending q) := by
  obtain ⟨fd', r, hr, rfl⟩ := exec_feed_rule h
  exact FeedRule.exec_feed (s := s.setPending q) hr

/-- A step at a `feed` word feeds its byte. -/
theorem step_feed_word {s t : State} {b : Byte} (hc : s.cfg.Legal) (h : exec (.feed b) s = .next t)
    (q : List Stimulus) :
    step (s.setPending (.op (.fdWord (OpWord.make 1 b)) :: q)) = .next (t.setPending q) := by
  have hstep := step_fdWord (s := s.setPending (.op (.fdWord (OpWord.make 1 b)) :: q)) rfl hc
  rw [decodeFdWord_make_one] at hstep
  exact hstep.trans (exec_feed_setPending h q)

/-- The steps at the words of `feedn` feed its bytes, whatever was pending before. -/
theorem run_feedn {s t : State} {bs : List Byte} (hc : s.cfg.Legal) (h : feedAll s bs = .next t) (q : List Stimulus) :
    Host.Core.run Sys2Proof.core bs.length (s.setPending (Trace.feedn bs ++ q)) = .next (t.setPending q) := by
  induction bs generalizing s with
  | nil => cases h; rfl
  | cons b bs ih =>
    obtain ⟨u, hu, hrest⟩ := execAll_cons_next h
    exact (run_succ (step_feed_word hc hu _) _).trans (ih (exec_cfg hu ▸ hc) hrest)

/-- Settles O20, by induction on the bytes. -/
theorem fedBytesAreSteps : Obligations.FedBytesAreSteps := by
  intro s t bs rest hc hp h
  have hs : s.setPending (Trace.feedn bs ++ rest) = s := hp ▸ rfl
  exact hs ▸ run_feedn hc h rest

/-! ## The trace line `extract` (R86, R130) -/

/-- The row that a frame's command selects gives the candidates of `extract` (R130). -/
theorem exec_decodeFrame (s : State) (f : Frame) :
    exec (decodeFrame s.cfg f) s = .next (s.after s.fd s.mv (.extract (extract s.cfg f))) := by
  unfold decodeFrame extract
  split
  · next hcls => exact if_pos hcls
  · next hcls =>
    split
    · next hdet => exact if_pos hdet
    · next hdet =>
      split
      · next hkey => exact if_pos hkey
      · next hkey => exact if_pos ⟨hkey, hcls, hdet⟩

/-- Results of other operations do not hide the result of the nearest preceding `feed`. -/
theorem returnedFrame_append {later : List Event} (h : ∀ e ∈ later, ∀ q, e ≠ .feed q) (es : List Event) :
    returnedFrame (later ++ es) = returnedFrame es := by
  induction later with
  | nil => rfl
  | cons e later ih =>
    obtain ⟨he, hlater⟩ := List.forall_mem_cons.1 h
    cases e with
    | feed q => exact absurd rfl (he q)
    | _ => exact ih hlater

theorem step_extract_some {s : State} {rest : List Stimulus} (hc : s.cfg.Legal)
    (hp : s.pending = .op .extractReturned :: rest) {f : Frame} (h : returnedFrame s.events = some f) :
    step s = .next ((s.after s.fd s.mv (.extract (extract s.cfg f))).setPending rest) := by
  have hi : decodeIn s .extractReturned = .ok (decodeFrame s.cfg f) := by simp only [decodeIn, decode, h]
  exact (step_op hp hc hi).trans (exec_decodeFrame (s.setPending rest) f)

theorem step_extract_none {s : State} {rest : List Stimulus} (hc : s.cfg.Legal)
    (hp : s.pending = .op .extractReturned :: rest) (h : returnedFrame s.events = none) :
    step s = .refused (.undecodable .noFrameReturned) := by
  have hi : decodeIn s .extractReturned = .error .noFrameReturned := by simp only [decodeIn, decode, h]
  exact (step_eq_perform hp hc).trans (perform_op_error hi)

/-- Settles O31: what lies after the nearest `feed` is passed over, and its result is the operand. -/
theorem traceExtractTakesReturnedFrame : Obligations.TraceExtractTakesReturnedFrame := by
  refine fun s rest hc hp => ⟨fun r later earlier hs hlater => ?_, fun hnone => ?_⟩
  · have hret : returnedFrame s.events = r := hs ▸ returnedFrame_append hlater _
    exact ⟨fun f hf => step_extract_some hc hp (hret.trans hf), fun hr => step_extract_none hc hp (hret.trans hr)⟩
  · exact step_extract_none hc hp (List.append_nil s.events ▸ returnedFrame_append hnone [])

end Sys2Proof.Machine
end

section
/-!
Which payload bytes `extract` reads (41_signal_extractor.md R131, R132): the id and the confidence of each complete record, and
no others (R79).
-/

namespace Sys2Proof.Machine

theorem readBound_of_payload_length {f : Frame} (h : f.payload.length = f.length.toNat) :
    readBound f = f.length.toNat := by
  simp [readBound, h]

/-- Two frames with the same bound that agree on the id and the confidence of every complete record from `i` on give the same
candidates from `i` on. -/
theorem strideLoop_congr {f g : Frame} {kind : Kind} {stride confOff fuel i : Nat} (hb : readBound f = readBound g)
    (h : ∀ r, i + stride * r + confOff < readBound f →
      f.payload[i + stride * r]? = g.payload[i + stride * r]? ∧
        f.payload[i + stride * r + confOff]? = g.payload[i + stride * r + confOff]?) :
    strideLoop f kind stride confOff fuel i = strideLoop g kind stride confOff fuel i := by
  induction fuel generalizing i with
  | zero => rfl
  | succ fuel ih =>
    have hrest : strideLoop f kind stride confOff fuel (i + stride) = strideLoop g kind stride confOff fuel (i + stride) :=
      ih fun r => by
        have hnext : i + stride * (r + 1) = i + stride + stride * r := by rw [Nat.mul_succ]; omega
        exact hnext ▸ h (r + 1)
    simp only [strideLoop, ← hb, hrest]
    split
    · split
      · next hin =>
        obtain ⟨hid, hconf⟩ := h 0 hin
        simp only [List.getD_eq_getElem?_getD]
        rw [Nat.mul_zero, Nat.add_zero] at hid hconf
        rw [hid, hconf]
      · rfl
    · rfl

theorem classificationCandidates_congr {c : Config} {f g : Frame} (hfirst : c.clsFirst = 1) (hstride : c.clsStride = 2)
    (hb : readBound f = readBound g)
    (h : ∀ r, 2 + 2 * r < readBound f →
      f.payload[1 + 2 * r]? = g.payload[1 + 2 * r]? ∧ f.payload[2 + 2 * r]? = g.payload[2 + 2 * r]?) :
    classificationCandidates c f = classificationCandidates c g := by
  simp only [classificationCandidates, hfirst, hstride, ← hb]
  refine strideLoop_congr hb fun r => ?_
  rw [show 1 + 2 * r + 1 = 2 + 2 * r by omega]
  exact h r

theorem detectionCandidates_congr {c : Config} {f g : Frame} (hfirst : c.detFirst = 1) (hstride : c.detStride = 6)
    (hconf : c.detConfOff = 5) (hb : readBound f = readBound g)
    (h : ∀ r, 6 + 6 * r < readBound f →
      f.payload[1 + 6 * r]? = g.payload[1 + 6 * r]? ∧ f.payload[6 + 6 * r]? = g.payload[6 + 6 * r]?) :
    detectionCandidates c f = detectionCandidates c g := by
  simp only [detectionCandidates, hfirst, hstride, hconf, ← hb]
  refine strideLoop_congr hb fun r => ?_
  rw [show 1 + 6 * r + 5 = 6 + 6 * r by omega]
  exact h r

/-- Settles O30: the loops of both kinds read the ids and confidences of the complete records only, and the other commands read
no payload byte. -/
theorem extractIgnoresUnreadBytes : Obligations.ExtractIgnoresUnreadBytes := by
  intro s f g hcf hcs hdf hds hdc hf hg hcmd hlen hcls hdet
  have hbf := readBound_of_payload_length hf
  have hb : readBound f = readBound g := by rw [hbf, readBound_of_payload_length hg, hlen]
  rw [← hbf] at hcls hdet
  have hsame : extract s.cfg f = extract s.cfg g := by
    simp only [extract, ← hcmd]
    split
    · next h => exact classificationCandidates_congr hcf hcs hb (hcls h)
    · split
      · next h => exact detectionCandidates_congr hdf hds hdc hb (hdet h)
      · rfl
  rw [exec_decodeFrame, exec_decodeFrame, hsame]

end Sys2Proof.Machine
end

section
/-!
The pulses of a clock edge (30_encoding.md R84, R85): the operation words of a port stand for instructions of its own unit, and
each unit's pulse says what its instruction returned.
-/

namespace Sys2Proof.Machine

/-- A word of the FD port stands for an `FD` instruction that is no BYTE row (R82). -/
theorem decodeFdWord_unit_slot (w : OpWord) : unitOf (decodeFdWord w) = .fd ∧ (decodeFdWord w).slot? = none := by
  unfold decodeFdWord
  split <;> exact ⟨rfl, rfl⟩

/-- A word of the MV port stands for an `MV` instruction (R83). -/
theorem unitOf_decodeMvWord (w : OpWord) : unitOf (decodeMvWord w) = .mv := by
  unfold decodeMvWord
  split <;> rfl

/-- `frame_valid` is raised exactly when the instruction returned a frame. -/
theorem emittedBy_iff {i : Instr} {s t : State} (hu : unitOf i = .fd) (hs : i.slot? = none) (h : exec i s = .next t) :
    emittedBy i t = true ↔ ∃ f, t.events = .feed (some f) :: s.events := by
  obtain ⟨rfl, rfl⟩ | ⟨rfl, rfl⟩ | ⟨b, rfl | rfl, hb⟩ := exec_fd_next_feed hu h
  · simp [emittedBy]
  · simp [emittedBy]
  · obtain ⟨fd', r, rfl⟩ := exec_feed_next hb
    cases r <;> simp [emittedBy]
  · rw [decodeByte_slot] at hs; cases hs

/-- `res_valid` is raised with a resolution exactly when the instruction returned it. -/
theorem resolvedBy_iff {j : Instr} {s t : State} (hu : unitOf j = .mv) (h : exec j s = .next t) (r : Resolution) :
    resolvedBy j t = some r ↔ t.events = .evaluate r :: s.events ∨ t.events = .sample (some r) :: s.events := by
  obtain ⟨rfl, rfl⟩ | ⟨rfl, rfl⟩ | ⟨rfl, rfl⟩ | ⟨id, mv', q, rfl, rfl⟩ := exec_mv_next hu h <;> simp [resolvedBy]

/-- An edge at which both operations complete answers the state they leave, with new pulses (R85). -/
theorem clockEdge_both {s a b : State} {fdOp mvOp : OpWord} (ha : exec (decodeFdWord fdOp) s = .next a)
    (hb : exec (decodeMvWord mvOp) a = .next b) :
    clockEdge false fdOp mvOp s =
      .next (b.setPort (pulsesAfter s a b (decodeFdWord fdOp) (decodeMvWord mvOp))) := by
  simp [clockEdge, ha, hb]

/-- Settles O55: the pulses of the edge are those of the two instructions its words stand for. -/
theorem clockEdgePerformsBoth : Obligations.ClockEdgePerformsBoth := by
  intro s a b fdOp mvOp ha hb
  obtain ⟨hfd, hslot⟩ := decodeFdWord_unit_slot fdOp
  exact ⟨_, clockEdge_both ha hb, emittedBy_iff hfd hslot ha, resolvedBy_iff (unitOf_decodeMvWord mvOp) hb⟩

end Sys2Proof.Machine
end

section
/-!
The rules of the decoder as statements about `feed` and the BYTE row of each position (40_frame_decoder.md R101 to R111): the rule
that applies to a byte is performed by both, and only R107 returns a frame.
-/

namespace Sys2Proof.Machine

/-! ## Each rule by `feed` and by its row (R101 to R108) -/

/-- The rule that applies to a byte is also what the row selected for the byte does. -/
theorem FeedRule.exec_row {s : State} {fd' : Fd} {b : Byte} {r : Option Frame} {i : Instr}
    (hr : FeedRule s.cfg s.fd b fd' r) (hi : decodeByte s.cfg s.fd.slot b = i) :
    exec i s = .next (s.after fd' s.mv (.feed r)) :=
  hi ▸ (exec_decodeByte s b).trans hr.exec_feed

/-- Settles O1: R101 is two rules, one for HEAD and one for every other byte. -/
theorem feedScansForHead : Obligations.FeedScansForHead := by
  intro s b hst
  have hslot := Fd.slot_waitStart.2 hst
  refine ⟨fun hb => ?_, fun hb => ?_⟩
  · have hr := FeedRule.head (c := s.cfg) hst hb
    exact ⟨_, hr.exec_feed, hr.exec_row (by rw [hslot]; exact if_pos hb), rfl, rfl, rfl, rfl, rfl, rfl, rfl⟩
  · have hr := FeedRule.noise (c := s.cfg) hst hb
    exact ⟨hr.exec_feed, hr.exec_row (by rw [hslot]; exact if_neg hb)⟩

/-- Settles O2. -/
theorem feedStoresCommand : Obligations.FeedStoresCommand := by
  intro s b hst hh
  have hr := FeedRule.command (c := s.cfg) (b := b) hst hh
  exact ⟨_, hr.exec_feed, hr.exec_row (by rw [Fd.slot_command.2 ⟨hst, hh⟩]; rfl), rfl, rfl, hst, rfl, rfl⟩

/-- Settles O3: the remainder of the length by 256 is its low byte. -/
theorem feedStoresLengthLow : Obligations.FeedStoresLengthLow := by
  intro s b hst hh
  have hr := FeedRule.lenLo (c := s.cfg) (b := b) hst hh
  have hlow : (setLenLow s.fd.len b).toNat % 256 = b.toNat := by rw [← U16.lowByte_toNat, setLenLow_low]
  exact ⟨_, hr.exec_feed, hr.exec_row (by rw [Fd.slot_lenLo.2 ⟨hst, hh⟩]; rfl), hlow, rfl, hst, rfl, rfl, rfl⟩

/-- Settles O4: the length is 0 as a number exactly when it is the word 0 that R104 tests for. -/
theorem feedCompletesLength : Obligations.FeedCompletesLength := by
  intro s b hst hh
  have hrow : decodeByte s.cfg s.fd.slot b = .feedHeaderLenHi b := by rw [Fd.slot_lenHi.2 ⟨hst, hh⟩]; rfl
  by_cases hz : setLenHigh s.fd.len b = 0
  · have hr := FeedRule.lenHiZero (c := s.cfg) hst hh hz
    exact ⟨_, hr.exec_feed, hr.exec_row hrow, setLenHigh_toNat _ _, fun _ => ⟨rfl, rfl⟩,
      fun h => absurd (congrArg BitVec.toNat hz) h, rfl, rfl, rfl⟩
  · have hr := FeedRule.lenHiPayload (c := s.cfg) hst hh hz
    exact ⟨_, hr.exec_feed, hr.exec_row hrow, setLenHigh_toNat _ _, fun h => absurd (BitVec.eq_of_toNat_eq h) hz,
      fun _ => ⟨rfl, rfl⟩, rfl, rfl, rfl⟩

/-- Below the length the payload address is inside the buffer, which holds the greatest length (R26). -/
theorem pcnt_lt_payloadCap_of_lt_len {c : Config} (hc : c.Legal) {pcnt len : U16} (h : pcnt.toNat < len.toNat) :
    pcnt.toNat < c.payloadCap := by
  have := len.isLt
  rw [payloadCap_of_legal hc]
  omega

/-- Settles O5: R105 is two rules, one for the last payload byte and one for the others, and both write at the counter. -/
theorem feedStoresPayloadByte : Obligations.FeedStoresPayloadByte := by
  intro s b hc hst hlt
  have hin := pcnt_lt_payloadCap_of_lt_len hc hlt
  have hrow : decodeByte s.cfg s.fd.slot b = .feedPayload b := by rw [Fd.slot_payload.2 hst]; rfl
  have hbefore : ∀ a, a < s.fd.pcnt.toNat →
      Memory.read (Memory.write s.fd.pay s.fd.pcnt.toNat b) a = Memory.read s.fd.pay a :=
    fun a ha => Memory.read_write_other _ (Nat.ne_of_lt ha) b
  by_cases hl : s.fd.pcnt.toNat + 1 = s.fd.len.toNat
  · have hr := FeedRule.payloadLast (b := b) hst hin hl
    exact ⟨_, hr.exec_feed, hr.exec_row hrow, Memory.read_write_same .., hbefore, pcnt_succ_toNat hlt,
      fun _ => ⟨rfl, rfl⟩, fun h => absurd hl h, rfl, rfl, rfl⟩
  · have hr := FeedRule.payloadMore (b := b) hst hin hl
    exact ⟨_, hr.exec_feed, hr.exec_row hrow, Memory.read_write_same .., hbefore, pcnt_succ_toNat hlt,
      fun h => absurd h hl, fun _ => hst, rfl, rfl, rfl⟩

/-- Settles O6: R106 is two rules, one for the last trailer byte and one for the others, and both write at the counter. -/
theorem feedStoresTrailerByte : Obligations.FeedStoresTrailerByte := by
  intro s b hst hlt
  have hrow : decodeByte s.cfg s.fd.slot b = .feedTrailer b := by rw [Fd.slot_trailer.2 hst]; rfl
  have hbefore : ∀ i, i < s.fd.tcnt → Memory.read (Memory.write s.fd.trl s.fd.tcnt b) i = Memory.read s.fd.trl i :=
    fun i hi => Memory.read_write_other _ (Nat.ne_of_lt hi) b
  rcases Nat.lt_or_eq_of_le (Nat.succ_le_of_lt hlt) with hl | hl
  · have hr := FeedRule.trailerMore (b := b) hst hl
    exact ⟨_, hr.exec_feed, hr.exec_row hrow, Memory.read_write_same .., hbefore, fun h => absurd h (Nat.ne_of_lt hl),
      fun _ => ⟨hst, rfl⟩, rfl, rfl, rfl, fun _ _ => rfl⟩
  · have hr := FeedRule.trailerLast (b := b) hst hl
    exact ⟨_, hr.exec_feed, hr.exec_row hrow, Memory.read_write_same .., hbefore, fun _ => ⟨rfl, rfl⟩,
      fun h => absurd hl h, rfl, rfl, rfl, fun _ _ => rfl⟩

theorem Memory.firstBytes_getElem? (m : Memory) {n i : Nat} (h : i < n) :
    (Memory.firstBytes m n)[i]? = some (Memory.read m i) := by
  simp [Memory.firstBytes, h]

/-- At an edge with the word `feed(END)` in TERMINATOR, `frame_valid` is raised (R85, R107). -/
theorem clockEdge_feed_end {s : State} (hst : s.fd.st = .terminator) :
    ∃ t, clockEdge false (OpWord.make 1 s.cfg.endMark) (OpWord.make 0 0) s = .next t ∧ t.port.frameValid = true := by
  have hfeed : exec (decodeFdWord (OpWord.make 1 s.cfg.endMark)) s = .next _ :=
    (decodeFdWord_make_one _).symm ▸ FeedRule.exec_feed (.emit hst rfl)
  have hnop (a : State) : exec (decodeMvWord (OpWord.make 0 0)) a = .next a := by rw [decodeMvWord_make_zero]; rfl
  obtain ⟨hfd, hslot⟩ := decodeFdWord_unit_slot (OpWord.make 1 s.cfg.endMark)
  exact ⟨_, clockEdge_both hfeed (hnop _), (emittedBy_iff hfd hslot hfeed).2 ⟨_, rfl⟩⟩

/-- Settles O7: the result is the held frame, whose fields are read off the registers. -/
theorem feedEmitsHeldFrame : Obligations.FeedEmitsHeldFrame := by
  intro s hst
  have hr := FeedRule.emit (c := s.cfg) hst rfl
  obtain ⟨hwait, hview, hstate, hbusy⟩ :=
    fdAfterReset_of_waitStart (s := s.after s.fd.toWaitStart s.mv (.feed (some (heldFrame s.cfg s.fd)))) rfl
  exact ⟨_, _, hr.exec_feed, hr.exec_row (by rw [Fd.slot_terminator.2 hst]; exact if_pos rfl), rfl, rfl,
    Memory.firstBytes_length .., fun _ => Memory.firstBytes_getElem? s.fd.pay, Memory.firstBytes_length ..,
    fun _ => Memory.firstBytes_getElem? s.fd.trl, rfl, hwait, hview, hstate, hbusy, clockEdge_feed_end hst⟩

/-- Settles O8. -/
theorem feedDropsWrongTerminator : Obligations.FeedDropsWrongTerminator := by
  intro s b hst hb
  have hr := FeedRule.wrongEnd (c := s.cfg) hst hb
  exact ⟨hr.exec_feed, hr.exec_row (by rw [Fd.slot_terminator.2 hst]; exact if_neg hb)⟩

/-! ## The other operations (R109, R110, R159, R160) -/

/-- Settles O9: `reset` writes `FD.st` only, which in WAIT_START is what it holds. -/
theorem resetReturnsToWaitStart : Obligations.ResetReturnsToWaitStart := by
  intro s
  obtain ⟨hwait, hview, hstate, hbusy⟩ := fdAfterReset_of_waitStart (s := s.after s.fd.toWaitStart s.mv .reset) rfl
  exact ⟨s.fd.toWaitStart, rfl, hwait, hview, hstate, hbusy, fun h => by rw [Fd.toWaitStart, ← h]⟩

/-- Settles O10. -/
theorem nopsChangeNothing : Obligations.NopsChangeNothing := fun _ => ⟨rfl, rfl⟩

/-- Settles O13: in WAIT_START no register but `FD.st` is live, and with no entry and no count nothing of the window is. -/
theorem resetAndClearKeepTheRest : Obligations.ResetAndClearKeepTheRest := by
  refine ⟨fun s t h => ?_, fun s t h => ?_⟩
  · cases h
    exact ⟨rfl, rfl, rfl, rfl, nofun, fun h => h.1 rfl, fun h => h.1 rfl, fun h => h.1 rfl, fun h => h rfl,
      fun h => h.1 rfl, fun _ => id, fun _ => id⟩
  · cases h
    exact ⟨rfl, rfl, rfl, rfl, fun i => Nat.not_lt_zero i, fun _ => Nat.not_lt_zero 0⟩

/-! ## What is returned (R111) -/

/-- R111: a rule returns the held frame exactly for END in TERMINATOR. -/
theorem FeedRule.result_eq {c : Config} {fd fd' : Fd} {b : Byte} {r : Option Frame} (hr : FeedRule c fd b fd' r) :
    r = if fd.st = .terminator ∧ b = c.endMark then some (heldFrame c fd) else none := by
  cases hr with
  | emit hst hb => exact (if_pos ⟨hst, hb⟩).symm
  | wrongEnd _ hb => exact (if_neg fun h => hb h.2).symm
  | head hst | noise hst | command hst | lenLo hst | lenHiZero hst | lenHiPayload hst | payloadLast hst
  | payloadMore hst | trailerLast hst | trailerMore hst => simp [hst]

theorem framesIn_feed (r : Option Frame) (es : List Event) : framesIn (.feed r :: es) = r.toList ++ framesIn es := by
  cases r <;> rfl

/-- Of the instructions that feed a byte in TERMINATOR, those named in R107 are the ones that feed END. -/
theorem feeds_end_iff {c : Config} {b : Byte} {i : Instr} (hi : i = .feed b ∨ i = decodeByte c .terminator b) :
    (i = .feed c.endMark ∨ i = .feedTerminatorEnd) ↔ b = c.endMark := by
  by_cases hb : b = c.endMark <;> obtain rfl | rfl := hi <;> simp [decodeByte, hb]

/-- Settles O25, unit by unit: `MV` and `SX` return no frame, and of the decoder's instructions only a feed returns one, by
R107. -/
theorem onlyEndReturnsFrame : Obligations.OnlyEndReturnsFrame := by
  intro i s t h
  refine ⟨fun b hi => ?_, ?_⟩
  · subst hi
    obtain ⟨fd', r, hr, rfl⟩ := exec_feed_rule h
    rw [← hr.result_eq]; rfl
  · cases hu : unitOf i with
    | fd =>
      obtain ⟨rfl, rfl⟩ | ⟨rfl, rfl⟩ | ⟨b, hi, hfeed⟩ := exec_fd_next_feed hu h
      · simp
      · simp [framesIn]
      · obtain ⟨fd', r, hr, rfl⟩ := exec_feed_rule hfeed
        rw [State.after_events, framesIn_feed, hr.result_eq]
        by_cases hst : s.fd.st = .terminator
        · rw [Fd.slot_terminator.2 hst] at hi
          simp only [feeds_end_iff hi]
          split <;> rfl
        · simp [hst]
    | mv =>
      obtain ⟨rfl, rfl⟩ | ⟨rfl, rfl⟩ | ⟨rfl, rfl⟩ | ⟨_, _, _, rfl, rfl⟩ := exec_mv_next hu h <;> simp [framesIn]
    | sx =>
      obtain ⟨_, rfl⟩ := exec_sx_next hu h
      have hno : ¬ (i = .feed s.cfg.endMark ∨ i = .feedTerminatorEnd) := by
        rintro (rfl | rfl) <;> cases hu
      simp [framesIn, hno]

end Sys2Proof.Machine
end

section
/-!
Runs of bytes that return no frame (40_frame_decoder.md R112 to R114): bytes that change nothing, and the bytes of a frame before
its END, which leave in the registers the frame they spell.
-/

namespace Sys2Proof.Machine

/-- A run of rules that returns nothing: the registers before it, the bytes fed, the registers after it. -/
inductive SilentRun (c : Config) : Fd → List Byte → Fd → Prop where
  | nil (fd : Fd) : SilentRun c fd [] fd
  | cons {fd fd₁ fd₂ : Fd} {b : Byte} {bs : List Byte} (hr : FeedRule c fd b fd₁ none) (h : SilentRun c fd₁ bs fd₂) :
      SilentRun c fd (b :: bs) fd₂

theorem SilentRun.append {c : Config} {fd fd₁ fd₂ : Fd} {bs cs : List Byte} (h : SilentRun c fd bs fd₁)
    (h' : SilentRun c fd₁ cs fd₂) : SilentRun c fd (bs ++ cs) fd₂ := by
  induction h with
  | nil => exact h'
  | cons hr _ ih => exact .cons hr (ih h')

/-- Feeding the bytes of a silent run completes, and returns no frame for each of them. -/
theorem SilentRun.feedAll_eq {s : State} {bs : List Byte} {fd' : Fd} (h : SilentRun s.cfg s.fd bs fd') :
    feedAll s bs = .next (s.afterAll fd' s.mv (List.replicate bs.length (.feed none))) := by
  induction bs generalizing s with
  | nil => cases h; rfl
  | cons b bs ih =>
    cases h with
    | @cons _ fd₁ _ _ _ hr hrest =>
      have hevents : List.replicate bs.length (Event.feed none) ++ .feed none :: s.events =
          List.replicate (bs.length + 1) (.feed none) ++ s.events := by
        rw [List.replicate_succ', List.append_assoc]; rfl
      refine (execAll_cons hr.exec_feed _).trans ((ih (s := s.after fd₁ s.mv (.feed none)) hrest).trans ?_)
      simp only [State.afterAll, State.after, hevents, List.length_cons]

/-- END after a silent run that reaches TERMINATOR returns the frame held there. -/
theorem SilentRun.feedAll_end {s : State} {bs : List Byte} {fd' : Fd} (h : SilentRun s.cfg s.fd bs fd')
    (hst : fd'.st = .terminator) :
    feedAll s (bs ++ [s.cfg.endMark]) = .next (s.afterAll fd'.toWaitStart s.mv
      (.feed (some (heldFrame s.cfg fd')) :: List.replicate bs.length (.feed none))) := by
  rw [feedAll, List.map_append, execAll_append h.feedAll_eq]
  exact execAll_cons (FeedRule.exec_feed (s := s.afterAll fd' s.mv _) (.emit hst rfl)) []

/-! ## Bytes that change nothing (R113, R114) -/

/-- Bytes that each leave the registers as they were do so together. -/
theorem SilentRun.of_unchanged {c : Config} {fd : Fd} {bs : List Byte} (h : ∀ b ∈ bs, FeedRule c fd b fd none) :
    SilentRun c fd bs fd := by
  induction bs with
  | nil => exact .nil fd
  | cons b bs ih =>
    obtain ⟨hb, hbs⟩ := List.forall_mem_cons.1 h
    exact .cons hb (ih hbs)

/-- Settles O16: every byte that is not HEAD is noise. -/
theorem noHeadNoFrame : Obligations.NoHeadNoFrame :=
  fun _ _ hst hbs => (SilentRun.of_unchanged fun b hb => .noise hst (hbs b hb)).feedAll_eq

theorem framesIn_replicate_none (n : Nat) (es : List Event) :
    framesIn (List.replicate n (.feed none) ++ es) = framesIn es := by
  induction n with
  | zero => rfl
  | succ n ih => exact ih

/-- Settles O17: every byte that is not END is dropped, so END finds the registers as they were. -/
theorem stuckTerminatorHoldsFrame : Obligations.StuckTerminatorHoldsFrame := by
  intro s bs hst hbs
  have hrun : SilentRun s.cfg s.fd bs s.fd := .of_unchanged fun b hb => .wrongEnd hst (hbs b hb)
  have hframes := framesIn_replicate_none bs.length s.events
  exact ⟨_, hrun.feedAll_eq, rfl, hframes,
    ⟨_, FeedRule.exec_feed (.emit hst rfl), rfl, congrArg (heldFrame s.cfg s.fd :: ·) hframes⟩,
    ⟨_, rfl, rfl, hframes⟩⟩

/-! ## The bytes of a frame (R112) -/

/-- HEAD and the header, from WAIT_START. -/
theorem silentRun_header {c : Config} {fd : Fd} (hst : fd.st = .waitStart) (cmd : Byte) (len : U16) :
    ∃ fd', SilentRun c fd [c.head, cmd, U16.lowByte len, U16.highByte len] fd' ∧
      fd'.st = (if len = 0 then .trailer else .payload) ∧ fd'.cmd = cmd ∧ fd'.len = len ∧ fd'.pcnt = 0 ∧ fd'.tcnt = 0 := by
  have hlen : setLenHigh (setLenLow fd.len (U16.lowByte len)) (U16.highByte len) = len := by simp [setLenHigh]
  by_cases hz : len = 0
  · exact ⟨_, .cons (.head hst rfl) (.cons (.command rfl rfl) (.cons (.lenLo rfl rfl)
      (.cons (.lenHiZero rfl rfl (hlen.trans hz)) (.nil _)))), (if_pos hz).symm, rfl, hlen, rfl, rfl⟩
  · exact ⟨_, .cons (.head hst rfl) (.cons (.command rfl rfl) (.cons (.lenLo rfl rfl)
      (.cons (.lenHiPayload rfl rfl (hlen.symm ▸ hz)) (.nil _)))), (if_neg hz).symm, rfl, hlen, rfl, rfl⟩

/-- The payload's remaining bytes, of which there are some, go to the payload of the held frame. -/
theorem silentRun_payload {c : Config} (hc : c.Legal) {fd : Fd} {p : List Byte} (hst : fd.st = .payload) (hp : p ≠ [])
    (hlen : fd.pcnt.toNat + p.length = fd.len.toNat) :
    ∃ fd', SilentRun c fd p fd' ∧ fd'.st = .trailer ∧ fd'.tcnt = fd.tcnt ∧
      heldFrame c fd' = { heldFrame c fd with payload := Memory.firstBytes fd.pay fd.pcnt.toNat ++ p } := by
  induction p generalizing fd with
  | nil => exact absurd rfl hp
  | cons b p ih =>
    rw [List.length_cons] at hlen
    have hlt : fd.pcnt.toNat < fd.len.toNat := by omega
    have hin := pcnt_lt_payloadCap_of_lt_len hc hlt
    have hwrite := Memory.firstBytes_write_next fd.pay fd.pcnt.toNat b
    by_cases hnil : p = []
    · subst hnil
      have hl : fd.pcnt.toNat + 1 = fd.len.toNat := hlen
      exact ⟨_, .cons (.payloadLast hst hin hl) (.nil _), rfl, rfl, by simp only [heldFrame, ← hl, hwrite]⟩
    · have hl : fd.pcnt.toNat + 1 ≠ fd.len.toNat := by
        have := List.length_pos_iff.2 hnil
        omega
      have hsucc := pcnt_succ_toNat hlt
      obtain ⟨fd', hrun, hst', htcnt, hheld⟩ :=
        ih (fd := { fd with pay := Memory.write fd.pay fd.pcnt.toNat b, pcnt := fd.pcnt + 1 }) hst hnil
          (by dsimp only; omega)
      refine ⟨fd', .cons (.payloadMore hst hin hl) hrun, hst', htcnt, hheld.trans ?_⟩
      simp only [heldFrame, hsucc, hwrite, List.append_assoc, List.singleton_append]

/-- The trailer's remaining bytes, of which there are some, go to the trailer of the held frame. -/
theorem silentRun_trailer {c : Config} {fd : Fd} {tr : List Byte} (hst : fd.st = .trailer) (htr : tr ≠ [])
    (hlen : fd.tcnt + tr.length = c.trailerLen) :
    ∃ fd', SilentRun c fd tr fd' ∧ fd'.st = .terminator ∧
      heldFrame c fd' = { heldFrame c fd with trailer := Memory.firstBytes fd.trl fd.tcnt ++ tr } := by
  induction tr generalizing fd with
  | nil => exact absurd rfl htr
  | cons b tr ih =>
    rw [List.length_cons] at hlen
    have hwrite := Memory.firstBytes_write_next fd.trl fd.tcnt b
    by_cases hnil : tr = []
    · subst hnil
      have hl : fd.tcnt + 1 = c.trailerLen := hlen
      exact ⟨_, .cons (.trailerLast hst hl) (.nil _), rfl, by simp only [heldFrame, ← hl, hwrite]⟩
    · have hl : fd.tcnt + 1 < c.trailerLen := by
        have := List.length_pos_iff.2 hnil
        omega
      obtain ⟨fd', hrun, hst', hheld⟩ :=
        ih (fd := { fd with trl := Memory.write fd.trl fd.tcnt b, tcnt := fd.tcnt + 1 }) hst hnil
          (by dsimp only; omega)
      refine ⟨fd', .cons (.trailerMore hst hl) hrun, hst', hheld.trans ?_⟩
      simp only [heldFrame, hwrite, List.append_assoc, List.singleton_append]

theorem headerLen_of_legal {c : Config} (hc : c.Legal) : c.headerLen = 3 := by
  obtain ⟨-, -, -, -, hheader, -⟩ := hc
  exact hheader

theorem trailerLen_pos_of_legal {c : Config} (hc : c.Legal) : 0 < c.trailerLen := by
  obtain ⟨-, -, -, -, -, -, -, htrl⟩ := hc
  exact htrl

/-- HEAD, header and payload leave the decoder at the start of the trailer, also where there is no payload. -/
theorem silentRun_to_trailer {c : Config} (hc : c.Legal) {fd : Fd} (hst : fd.st = .waitStart) (cmd : Byte) {len : U16}
    {p : List Byte} (hp : p.length = len.toNat) :
    ∃ fd', SilentRun c fd ([c.head, cmd, U16.lowByte len, U16.highByte len] ++ p) fd' ∧ fd'.st = .trailer ∧
      fd'.tcnt = 0 ∧ heldFrame c fd' = ⟨cmd, len, p, Memory.firstBytes fd'.trl c.trailerLen, c.endMark⟩ := by
  obtain ⟨fd₁, hrun₁, hst₁, rfl, rfl, hpcnt, htcnt⟩ := silentRun_header (c := c) hst cmd len
  by_cases hnil : p = []
  · have hz : fd₁.len = 0 := BitVec.eq_of_toNat_eq (hp.symm.trans (congrArg List.length hnil))
    subst hnil
    refine ⟨fd₁, (List.append_nil _).symm ▸ hrun₁, hst₁.trans (if_pos hz), htcnt, ?_⟩
    simp [heldFrame, hz]
  · have hz : fd₁.len ≠ 0 := fun hz => hnil (List.eq_nil_of_length_eq_zero (hp.trans (congrArg BitVec.toNat hz)))
    obtain ⟨fd₂, hrun₂, hst₂, htcnt₂, hheld⟩ :=
      silentRun_payload hc (hst₁.trans (if_neg hz)) hnil (by rw [hpcnt, ← hp]; exact Nat.zero_add _)
    refine ⟨fd₂, hrun₁.append hrun₂, hst₂, htcnt₂.trans htcnt, ?_⟩
    have htrl : Memory.firstBytes fd₂.trl c.trailerLen = Memory.firstBytes fd₁.trl c.trailerLen :=
      congrArg Frame.trailer hheld
    rw [hheld, htrl, hpcnt]
    rfl

/-- The bytes of a frame before END, fed from WAIT_START, return nothing and leave the decoder holding the frame. -/
theorem silentRun_to_terminator {c : Config} (hc : c.Legal) {fd : Fd} (hst : fd.st = .waitStart) (cmd : Byte)
    {len : U16} {p tr : List Byte} (hp : p.length = len.toNat) (htr : tr.length = c.trailerLen) :
    ∃ fd', SilentRun c fd ([c.head, cmd, U16.lowByte len, U16.highByte len] ++ p ++ tr) fd' ∧ fd'.st = .terminator ∧
      heldFrame c fd' = ⟨cmd, len, p, tr, c.endMark⟩ := by
  obtain ⟨fd₁, hrun₁, hst₁, htcnt, hheld₁⟩ := silentRun_to_trailer hc hst cmd hp
  have hne : tr ≠ [] := List.ne_nil_of_length_pos (htr ▸ trailerLen_pos_of_legal hc)
  obtain ⟨fd₂, hrun₂, hst₂, hheld₂⟩ := silentRun_trailer hst₁ hne (by rw [htcnt, htr]; exact Nat.zero_add _)
  refine ⟨fd₂, hrun₁.append hrun₂, hst₂, ?_⟩
  rw [hheld₂, hheld₁, htcnt]
  rfl

/-- R112: the bytes of a well-formed frame, fed from WAIT_START, return the frame on the last of them. -/
theorem feedAll_wire {s : State} (hc : s.cfg.Legal) (hst : s.fd.st = .waitStart) {f : Frame} (hf : f.WellFormed s.cfg) :
    ∃ fd', feedAll s (f.wire s.cfg) = .next (s.afterAll fd' s.mv
        (.feed (some f) :: List.replicate ((f.wire s.cfg).length - 1) (.feed none))) ∧ fd'.st = .waitStart := by
  obtain ⟨cmd, len, p, tr, e⟩ := f
  obtain ⟨hp, htr, he⟩ := hf
  dsimp only at hp htr he
  subst he
  obtain ⟨fd', hrun, hst', hheld⟩ := silentRun_to_terminator hc hst cmd hp htr
  have hfeed := hrun.feedAll_end hst'
  rw [hheld] at hfeed
  exact ⟨fd'.toWaitStart, by rw [Frame.wire, List.length_append]; exact hfeed, rfl⟩

/-- Settles O15: the operations of `frame` are the feeds of the frame's bytes, performed step by step. -/
theorem wellFormedFrameIsReturned : Obligations.WellFormedFrameIsReturned := by
  intro s cmd p tr rest hc hst hp htr hpending
  have hlen : (BitVec.ofNat 16 p.length).toNat = p.length := Nat.mod_eq_of_lt (Nat.lt_succ_of_le hp)
  have hf : Frame.WellFormed s.cfg ⟨cmd, BitVec.ofNat 16 p.length, p, tr, s.cfg.endMark⟩ := ⟨hlen.symm, htr, rfl⟩
  have hwire := wire_length hf (headerLen_of_legal hc)
  rw [hlen] at hwire
  have hcount : s.cfg.frameOverhead + p.length - 1 = s.cfg.frameOverhead - 1 + p.length := by
    rw [Config.frameOverhead]; omega
  obtain ⟨fd', hfeed, hst'⟩ := feedAll_wire hc hst hf
  rw [hwire, hcount] at hfeed
  have hrun := run_feedn hc hfeed rest
  rw [Trace.frame] at hpending
  rw [hwire, ← hpending] at hrun
  exact ⟨_, hrun, rfl, hst', rfl, rfl, rfl⟩

end Sys2Proof.Machine
end

section
/-!
What the decoder has read of a frame in progress (40_frame_decoder.md R115, R119): in every state that bytes fed from WAIT_START
lead to, the registers spell the bytes from the last HEAD taken on. So a frame returned is the bytes that were fed, and takes as
many of them as a frame has.
-/

namespace Sys2Proof.Machine

/-! ## The bytes the registers stand for (R29) -/

/-- HEAD and the header. -/
def Fd.headerBytes (c : Config) (fd : Fd) : List Byte := [c.head, fd.cmd, U16.lowByte fd.len, U16.highByte fd.len]

/-- The frame up to its trailer. -/
def Fd.bodyBytes (c : Config) (fd : Fd) : List Byte := fd.headerBytes c ++ Memory.firstBytes fd.pay fd.len.toNat

/-- `bs` are the bytes, from HEAD on, that the registers hold of the frame in progress, with the counters of R29's value
columns. In TERMINATOR bytes that are not END may have been dropped after them (R108). -/
def Fd.HasRead (c : Config) (fd : Fd) (bs : List Byte) : Prop :=
  match fd.st with
  | .waitStart => bs = []
  | .header => fd.pcnt = 0 ∧ fd.tcnt = 0 ∧ bs = c.head :: [fd.cmd, U16.lowByte fd.len].take fd.hcnt
  | .payload => fd.pcnt.toNat < fd.len.toNat ∧ fd.tcnt = 0 ∧
      bs = fd.headerBytes c ++ Memory.firstBytes fd.pay fd.pcnt.toNat
  | .trailer => bs = fd.bodyBytes c ++ Memory.firstBytes fd.trl fd.tcnt
  | .terminator => ∃ x, c.endMark ∉ x ∧ bs = fd.bodyBytes c ++ Memory.firstBytes fd.trl c.trailerLen ++ x

section
variable {c : Config} {fd : Fd} {bs : List Byte}

theorem Fd.hasRead_waitStart (h : fd.st = .waitStart) : fd.HasRead c bs ↔ bs = [] := by
  simp only [Fd.HasRead, h]

theorem Fd.hasRead_header (h : fd.st = .header) : fd.HasRead c bs ↔
    fd.pcnt = 0 ∧ fd.tcnt = 0 ∧ bs = c.head :: [fd.cmd, U16.lowByte fd.len].take fd.hcnt := by
  simp only [Fd.HasRead, h]

theorem Fd.hasRead_payload (h : fd.st = .payload) : fd.HasRead c bs ↔
    fd.pcnt.toNat < fd.len.toNat ∧ fd.tcnt = 0 ∧ bs = fd.headerBytes c ++ Memory.firstBytes fd.pay fd.pcnt.toNat := by
  simp only [Fd.HasRead, h]

theorem Fd.hasRead_trailer (h : fd.st = .trailer) : fd.HasRead c bs ↔
    bs = fd.bodyBytes c ++ Memory.firstBytes fd.trl fd.tcnt := by
  simp only [Fd.HasRead, h]

theorem Fd.hasRead_terminator (h : fd.st = .terminator) : fd.HasRead c bs ↔
    ∃ x, c.endMark ∉ x ∧ bs = fd.bodyBytes c ++ Memory.firstBytes fd.trl c.trailerLen ++ x := by
  simp only [Fd.HasRead, h]

end

/-- Unless it ends in WAIT_START, a rule that returns nothing appends its byte to the bytes read. -/
theorem FeedRule.hasRead {c : Config} {fd fd' : Fd} {b : Byte} {bs : List Byte} (hr : FeedRule c fd b fd' none)
    (h : fd.HasRead c bs) (hst' : fd'.st ≠ .waitStart) : fd'.HasRead c (bs ++ [b]) := by
  cases hr with
  | head hst hb =>
    rw [Fd.hasRead_waitStart hst] at h
    exact ⟨rfl, rfl, by rw [h, hb]; rfl⟩
  | noise hst => exact absurd hst hst'
  | command hst hh | lenLo hst hh =>
    obtain ⟨hp, ht, rfl⟩ := (Fd.hasRead_header hst).1 h
    exact (Fd.hasRead_header (by exact hst)).2 ⟨hp, ht, by simp [hh]⟩
  | lenHiZero hst hh hz =>
    obtain ⟨-, ht, rfl⟩ := (Fd.hasRead_header hst).1 h
    have hzero : (setLenHigh fd.len b).toNat = 0 := congrArg BitVec.toNat hz
    exact (Fd.hasRead_trailer rfl).2 (by simp [Fd.bodyBytes, Fd.headerBytes, hh, ht, hzero])
  | lenHiPayload hst hh hz =>
    obtain ⟨hp, ht, rfl⟩ := (Fd.hasRead_header hst).1 h
    have hpos : 0 < (setLenHigh fd.len b).toNat := Nat.pos_of_ne_zero fun h0 => hz (BitVec.eq_of_toNat_eq h0)
    exact (Fd.hasRead_payload rfl).2 ⟨hp ▸ hpos, ht, by simp [Fd.headerBytes, hh, hp]⟩
  | payloadLast hst hin hl =>
    obtain ⟨-, ht, rfl⟩ := (Fd.hasRead_payload hst).1 h
    refine (Fd.hasRead_trailer rfl).2 ?_
    simp only [Fd.bodyBytes, Fd.headerBytes, ht, ← hl, Memory.firstBytes_write_next]
    simp
  | payloadMore hst hin hl =>
    obtain ⟨hlt, ht, rfl⟩ := (Fd.hasRead_payload hst).1 h
    have hsucc := pcnt_succ_toNat hlt
    refine (Fd.hasRead_payload (by exact hst)).2 ⟨?_, ht, ?_⟩
    · dsimp only; omega
    · simp only [Fd.headerBytes, hsucc, Memory.firstBytes_write_next]
      simp
  | trailerLast hst hl =>
    rw [Fd.hasRead_trailer hst] at h
    refine (Fd.hasRead_terminator rfl).2 ⟨[], List.not_mem_nil, ?_⟩
    simp only [h, ← hl, Memory.firstBytes_write_next]
    simp [Fd.bodyBytes, Fd.headerBytes]
  | trailerMore hst hl =>
    rw [Fd.hasRead_trailer hst] at h
    refine (Fd.hasRead_trailer (by exact hst)).2 ?_
    simp only [h, Memory.firstBytes_write_next]
    simp [Fd.bodyBytes, Fd.headerBytes]
  | wrongEnd hst hb =>
    obtain ⟨x, hx, rfl⟩ := (Fd.hasRead_terminator hst).1 h
    exact (Fd.hasRead_terminator (by exact hst)).2 ⟨x ++ [b], by simpa [hx] using Ne.symm hb, by simp⟩

/-- A rule that returns a frame is R107, on END. -/
theorem FeedRule.of_some {c : Config} {fd fd' : Fd} {b : Byte} {f : Frame} (hr : FeedRule c fd b fd' (some f)) :
    fd.st = .terminator ∧ b = c.endMark ∧ fd' = fd.toWaitStart ∧ f = heldFrame c fd := by
  cases hr with
  | emit hst hb => exact ⟨hst, hb, rfl, rfl⟩

/-- A frame returned has taken at least the bytes of a frame without payload, END among them (R70, R74). -/
theorem FeedRule.frameOverhead_le {c : Config} (hc : c.Legal) {fd fd' : Fd} {b : Byte} {f : Frame} {bs : List Byte}
    (hr : FeedRule c fd b fd' (some f)) (h : fd.HasRead c bs) : c.frameOverhead ≤ bs.length + 1 := by
  obtain ⟨hst, -⟩ := hr.of_some
  obtain ⟨x, -, rfl⟩ := (Fd.hasRead_terminator hst).1 h
  have := headerLen_of_legal hc
  simp only [Config.frameOverhead, Fd.bodyBytes, Fd.headerBytes, List.length_append, List.length_cons,
    Memory.firstBytes_length]
  omega

/-! ## Sequences of bytes (R119) -/

/-- Induction on a sequence of bytes by its last byte. The package imports no Mathlib, so this stands here. -/
theorem bytes_concat_induction {motive : List Byte → Prop} (nil : motive [])
    (concat : ∀ bs b, motive bs → motive (bs ++ [b])) (bs : List Byte) : motive bs := by
  rw [← List.reverse_reverse bs]
  induction bs.reverse with
  | nil => exact nil
  | cons b bs ih => exact List.reverse_cons ▸ concat bs.reverse b ih

/-- If instructions in two parts complete, so does each part. -/
theorem execAll_append_next {s t : State} {is js : List Instr} (h : execAll s (is ++ js) = .next t) :
    ∃ u, execAll s is = .next u ∧ execAll u js = .next t := by
  induction is generalizing s with
  | nil => exact ⟨s, rfl, h⟩
  | cons i is ih =>
    obtain ⟨v, hv, hrest⟩ := execAll_cons_next h
    obtain ⟨u, hu, ht⟩ := ih hrest
    exact ⟨u, (execAll_cons hv is).trans hu, ht⟩

/-- The last byte of a sequence is fed in the state that the others lead to. -/
theorem feedAll_concat_next {s t : State} {bs : List Byte} {b : Byte} (h : feedAll s (bs ++ [b]) = .next t) :
    ∃ u, feedAll s bs = .next u ∧ exec (.feed b) u = .next t := by
  rw [feedAll, List.map_append] at h
  obtain ⟨u, hu, hb⟩ := execAll_append_next h
  obtain ⟨v, hv, ht⟩ := execAll_cons_next hb
  cases ht
  exact ⟨u, hu, hv⟩

theorem feedAll_cfg {s t : State} {bs : List Byte} (h : feedAll s bs = .next t) : t.cfg = s.cfg := by
  induction bs generalizing s with
  | nil => cases h; rfl
  | cons b bs ih =>
    obtain ⟨u, hu, ht⟩ := execAll_cons_next h
    exact (ih ht).trans (exec_cfg hu)

/-- Bytes fed from WAIT_START divide into those before a stay in WAIT_START, and those that the decoder has read since; the
frames returned are paid for by the former, `frameOverhead` bytes each. -/
theorem feedAll_hasRead {s t : State} {bs : List Byte} (hc : s.cfg.Legal) (hst : s.fd.st = .waitStart)
    (h : feedAll s bs = .next t) :
    ∃ (u : State) (before part : List Byte), bs = before ++ part ∧ feedAll s before = .next u ∧ u.fd.st = .waitStart ∧
      t.fd.HasRead s.cfg part ∧
      s.cfg.frameOverhead * (framesIn t.events).length + part.length ≤
        s.cfg.frameOverhead * (framesIn s.events).length + bs.length := by
  induction bs using bytes_concat_induction generalizing t with
  | nil => cases h; exact ⟨s, [], [], rfl, rfl, hst, (Fd.hasRead_waitStart hst).2 rfl, Nat.le_refl _⟩
  | concat bs b ih =>
    obtain ⟨v, hv, hb⟩ := feedAll_concat_next h
    obtain ⟨u, before, part, rfl, hu, hwait, hread, hcount⟩ := ih hv
    obtain ⟨fd', r, hr, rfl⟩ := exec_feed_rule hb
    rw [feedAll_cfg hv] at hr
    simp only [State.after_fd, State.after_events, List.length_append, List.length_singleton] at hcount ⊢
    cases r with
    | none =>
      by_cases hst' : fd'.st = .waitStart
      · exact ⟨_, before ++ part ++ [b], [], (List.append_nil _).symm, h, hst', (Fd.hasRead_waitStart hst').2 rfl, by
          simp only [framesIn, List.length_nil]; omega⟩
      · exact ⟨u, before, part ++ [b], List.append_assoc .., hu, hwait, hr.hasRead hread hst', by
          simp only [framesIn, List.length_append, List.length_singleton]; omega⟩
    | some f =>
      have hpaid := hr.frameOverhead_le hc hread
      obtain ⟨-, -, rfl, -⟩ := hr.of_some
      exact ⟨_, before ++ part ++ [b], [], (List.append_nil _).symm, h, rfl, (Fd.hasRead_waitStart rfl).2 rfl, by
        simp only [framesIn, List.length_cons, List.length_nil, Nat.mul_succ]; omega⟩

/-- Settles O18: R107 returns what the registers hold, which are the bytes read since WAIT_START. -/
theorem returnedFrameIsWhatWasFed : Obligations.ReturnedFrameIsWhatWasFed := by
  intro s t bs f hc hst hne h hhead
  obtain ⟨bs, b, rfl⟩ : ∃ bs' b, bs = bs' ++ [b] := ⟨_, _, (List.dropLast_concat_getLast hne).symm⟩
  obtain ⟨v, hv, hb⟩ := feedAll_concat_next h
  obtain ⟨u, before, part, rfl, hu, hwait, hread, -⟩ := feedAll_hasRead hc hst hv
  obtain ⟨fd', r, hr, rfl⟩ := exec_feed_rule hb
  obtain rfl : r = some f := Event.feed.inj (Option.some.inj hhead)
  rw [feedAll_cfg hv] at hr
  obtain ⟨hterm, rfl, -, rfl⟩ := hr.of_some
  obtain ⟨x, hx, rfl⟩ := (Fd.hasRead_terminator hterm).1 hread
  refine ⟨u, before, v.fd.cmd, U16.lowByte v.fd.len, U16.highByte v.fd.len, Memory.firstBytes v.fd.pay v.fd.len.toNat,
    Memory.firstBytes v.fd.trl s.cfg.trailerLen, x, List.append_assoc .., hu, hwait, ?_, Memory.firstBytes_length ..,
    hx, ?_⟩
  · rw [Memory.firstBytes_length, ← U16.make_toNat, U16.make_high_low]
  · rw [U16.make_high_low]; rfl

/-- Each frame returned takes an END byte (R107). -/
theorem framesIn_feedAll_le_count {s t : State} {bs : List Byte} (h : feedAll s bs = .next t) :
    (framesIn t.events).length ≤ (framesIn s.events).length + bs.count s.cfg.endMark := by
  induction bs generalizing s with
  | nil => cases h; exact Nat.le_refl _
  | cons b bs ih =>
    obtain ⟨u, hu, hrest⟩ := execAll_cons_next h
    obtain ⟨fd', r, hr, rfl⟩ := exec_feed_rule hu
    have hle := ih hrest
    simp only [State.after_events, State.after_cfg] at hle
    cases r with
    | none => exact Nat.le_trans hle (Nat.add_le_add_left List.count_le_count_cons _)
    | some f =>
      obtain ⟨-, rfl, -⟩ := hr.of_some
      simp only [framesIn, List.length_cons] at hle
      rw [List.count_cons_self]
      omega

/-- Settles O19: what the decoder has read since WAIT_START is over and above what the frames returned have taken. -/
theorem chunkingAndFrameCount : Obligations.ChunkingAndFrameCount := by
  refine ⟨fun s t bs cs h => ?_, fun s t bs h => ⟨framesIn_feedAll_le_count h, fun hc hst => ?_⟩, rfl⟩
  · rw [feedAll, List.map_append, execAll_append h]; rfl
  · obtain ⟨-, -, part, -, -, -, -, hcount⟩ := feedAll_hasRead hc hst h
    exact Nat.le_of_add_right_le hcount

end Sys2Proof.Machine
end

section
/-!
The decoder's flow (40_frame_decoder.md R116): the rule that applies to a byte, and the position after it, are decided by the
position and the byte, not by command, payload or trailer.
-/

namespace Sys2Proof.Machine

theorem Fd.samePosition_waitStart {f g : Fd} (hf : f.st = .waitStart) (hg : g.st = .waitStart) : f.SamePosition g where
  st := hf.trans hg.symm
  hcnt h := nomatch hf.symm.trans h
  lenLow h := absurd hf h.1
  lenHigh h := absurd hf h.1
  pcnt h := absurd hf h
  tcnt h := absurd hf h.1

/-- In the header the position is that of the counters, and of the low length byte once it has been read (R29). -/
theorem Fd.samePosition_header {f g : Fd} (hf : f.st = .header) : f.SamePosition g ↔
    g.st = .header ∧ f.hcnt = g.hcnt ∧ (f.hcnt = 2 → U16.lowByte f.len = U16.lowByte g.len) ∧ f.pcnt = g.pcnt ∧
      f.tcnt = g.tcnt := by
  have hw : f.st ≠ .waitStart := by simp [hf]
  have ht : f.st ≠ .terminator := by simp [hf]
  constructor
  · intro h
    exact ⟨h.st.symm.trans hf, h.hcnt hf, fun hh => h.lenLow ⟨hw, fun _ => hh⟩, h.pcnt hw, h.tcnt ⟨hw, ht⟩⟩
  · intro ⟨hst, hhcnt, hlow, hpcnt, htcnt⟩
    exact ⟨hf.trans hst.symm, fun _ => hhcnt, fun h => hlow (h.2 hf), fun h => absurd hf h.2, fun _ => hpcnt,
      fun _ => htcnt⟩

/-- After the header the position is that of the length and of the counters that are live. -/
theorem Fd.samePosition_body {f g : Fd} (hw : f.st ≠ .waitStart) (hh : f.st ≠ .header) : f.SamePosition g ↔
    f.st = g.st ∧ f.len = g.len ∧ f.pcnt = g.pcnt ∧ (f.st ≠ .terminator → f.tcnt = g.tcnt) := by
  constructor
  · intro h
    have hlen : f.len = g.len := by
      rw [← U16.make_high_low f.len, h.lenHigh ⟨hw, hh⟩, h.lenLow ⟨hw, fun hf => absurd hf hh⟩, U16.make_high_low]
    exact ⟨h.st, hlen, h.pcnt hw, fun ht => h.tcnt ⟨hw, ht⟩⟩
  · intro ⟨hst, hlen, hpcnt, htcnt⟩
    exact ⟨hst, fun hf => absurd hf hh, fun _ => hlen ▸ rfl, fun _ => hlen ▸ rfl, fun _ => hpcnt, fun h => htcnt h.2⟩

/-- The rule of a byte at one decoder has its counterpart at every decoder at the same position. -/
theorem FeedRule.same_position {c : Config} {f f' g : Fd} {b : Byte} {r : Option Frame} (hr : FeedRule c f b f' r)
    (h : f.SamePosition g) : ∃ g' r', FeedRule c g b g' r' ∧ f'.SamePosition g' := by
  have hst := h.st
  cases hr with
  | head hw hb =>
    exact ⟨_, _, .head (hst ▸ hw) hb, (Fd.samePosition_header rfl).2 ⟨rfl, rfl, nofun, rfl, rfl⟩⟩
  | noise hw hb => exact ⟨_, _, .noise (hst ▸ hw) hb, h⟩
  | command hw hh =>
    obtain ⟨hg, hhcnt, -, hpcnt, htcnt⟩ := (Fd.samePosition_header hw).1 h
    exact ⟨_, _, .command hg (hhcnt ▸ hh), (Fd.samePosition_header (by exact hw)).2 ⟨hg, rfl, nofun, hpcnt, htcnt⟩⟩
  | lenLo hw hh =>
    obtain ⟨hg, hhcnt, -, hpcnt, htcnt⟩ := (Fd.samePosition_header hw).1 h
    exact ⟨_, _, .lenLo hg (hhcnt ▸ hh), (Fd.samePosition_header (by exact hw)).2
      ⟨hg, rfl, fun _ => (setLenLow_low f.len b).trans (setLenLow_low g.len b).symm, hpcnt, htcnt⟩⟩
  | lenHiZero hw hh hz =>
    obtain ⟨hg, hhcnt, hlow, hpcnt, htcnt⟩ := (Fd.samePosition_header hw).1 h
    have hlen : setLenHigh f.len b = setLenHigh g.len b := congrArg (U16.make b) (hlow hh)
    exact ⟨_, _, .lenHiZero hg (hhcnt ▸ hh) (hlen ▸ hz),
      (Fd.samePosition_body (by simp) (by simp)).2 ⟨rfl, hlen, hpcnt, fun _ => htcnt⟩⟩
  | lenHiPayload hw hh hz =>
    obtain ⟨hg, hhcnt, hlow, hpcnt, htcnt⟩ := (Fd.samePosition_header hw).1 h
    have hlen : setLenHigh f.len b = setLenHigh g.len b := congrArg (U16.make b) (hlow hh)
    exact ⟨_, _, .lenHiPayload hg (hhcnt ▸ hh) (hlen ▸ hz),
      (Fd.samePosition_body (by simp) (by simp)).2 ⟨rfl, hlen, hpcnt, fun _ => htcnt⟩⟩
  | payloadLast hw hin hl =>
    obtain ⟨-, hlen, hpcnt, htcnt⟩ := (Fd.samePosition_body (by simp [hw]) (by simp [hw])).1 h
    exact ⟨_, _, .payloadLast (hst ▸ hw) (hpcnt ▸ hin) (hpcnt ▸ hlen ▸ hl),
      (Fd.samePosition_body (by simp) (by simp)).2 ⟨rfl, hlen, congrArg (· + 1) hpcnt, fun _ => htcnt (by simp [hw])⟩⟩
  | payloadMore hw hin hl =>
    obtain ⟨-, hlen, hpcnt, htcnt⟩ := (Fd.samePosition_body (by simp [hw]) (by simp [hw])).1 h
    exact ⟨_, _, .payloadMore (hst ▸ hw) (hpcnt ▸ hin) (hpcnt ▸ hlen ▸ hl),
      (Fd.samePosition_body (by simp [hw]) (by simp [hw])).2 ⟨hst, hlen, congrArg (· + 1) hpcnt, htcnt⟩⟩
  | trailerLast hw hl =>
    obtain ⟨-, hlen, hpcnt, htcnt⟩ := (Fd.samePosition_body (by simp [hw]) (by simp [hw])).1 h
    exact ⟨_, _, .trailerLast (hst ▸ hw) (htcnt (by simp [hw]) ▸ hl),
      (Fd.samePosition_body (by simp) (by simp)).2 ⟨rfl, hlen, hpcnt, fun ht => absurd rfl ht⟩⟩
  | trailerMore hw hl =>
    obtain ⟨-, hlen, hpcnt, htcnt⟩ := (Fd.samePosition_body (by simp [hw]) (by simp [hw])).1 h
    have hnext : f.tcnt + 1 = g.tcnt + 1 := congrArg (· + 1) (htcnt (by simp [hw]))
    exact ⟨_, _, .trailerMore (hst ▸ hw) (hnext ▸ hl),
      (Fd.samePosition_body (by simp [hw]) (by simp [hw])).2 ⟨hst, hlen, hpcnt, fun _ => hnext⟩⟩
  | emit hw hb => exact ⟨_, _, .emit (hst ▸ hw) hb, Fd.samePosition_waitStart rfl rfl⟩
  | wrongEnd hw hb => exact ⟨_, _, .wrongEnd (hst ▸ hw) hb, h⟩

/-- Settles O23. -/
theorem flowIgnoresContent : Obligations.FlowIgnoresContent := by
  intro s t s' b hcfg h hs
  obtain ⟨fs, r, hr, rfl⟩ := exec_feed_rule hs
  obtain ⟨ft, r', hr', hsame⟩ := hr.same_position h
  rw [hcfg] at hr'
  exact ⟨_, hr'.exec_feed, hsame⟩

end Sys2Proof.Machine
end

section
/-!
The candidates of a frame (41_signal_extractor.md R130 to R134): which FRAME row completes on a frame, and the records that the
stride loop gives.
-/

namespace Sys2Proof.Machine

/-! ## Which FRAME row completes (R88, R130) -/

/-- A FRAME row on a frame whose command selects it gives its candidates. -/
theorem State.extracted_of {p : Prop} [Decidable p] (hp : p) (s : State) (cs : List Candidate) :
    s.extracted p cs = .next (s.after s.fd s.mv (.extract cs)) := if_pos hp

/-- A FRAME row on a frame of another command is refused by name (log entry 9). -/
theorem State.extracted_of_not {p : Prop} [Decidable p] (hp : ¬ p) (s : State) (cs : List Candidate) :
    s.extracted p cs = .refused .frameRowNotSelected := if_neg hp

/-- Settles O28. -/
theorem uninterpretedCommandsYieldNothing : Obligations.UninterpretedCommandsYieldNothing :=
  fun s _ => ⟨fun h => State.extracted_of h s _, fun h => State.extracted_of h s _⟩

/-- Settles O29: a row that is not the one decoded is not selected by the command, since the command of its own frames
would decode to it. -/
theorem extractIsTotalOnFrames : Obligations.ExtractIsTotalOnFrames := by
  refine ⟨exec_decodeFrame, fun s f hc i hi hne => ?_⟩
  simp only [List.mem_cons, List.not_mem_nil, or_false] at hi
  obtain rfl | rfl | rfl | rfl := hi
  · exact State.extracted_of_not (fun h => hne (decodeFrame_keypoint hc h).symm) s _
  · exact State.extracted_of_not (fun h => hne (decodeFrame_classification h).symm) s _
  · exact State.extracted_of_not (fun h => hne (decodeFrame_detection hc h).symm) s _
  · exact State.extracted_of_not (fun h => hne (decodeFrame_reserved h).symm) s _

/-! ## The records of the stride loop (R131, R132) -/

/-- The candidate read off the record that begins at offset `i`. -/
def recordAt (f : Frame) (kind : Kind) (confOff i : Nat) : Candidate :=
  ⟨f.payload.getD i 0, f.payload.getD (i + confOff) 0, kind⟩

/-- Where the confidence is the last byte of a stride, the loop gives one candidate for each whole stride left inside the
bound. -/
theorem strideLoop_eq_map {f : Frame} {kind : Kind} {stride confOff fuel i : Nat} (hstride : stride = confOff + 1)
    (hfuel : readBound f ≤ i + fuel) :
    strideLoop f kind stride confOff fuel i =
      (List.range ((readBound f - i) / stride)).map fun r => recordAt f kind confOff (i + stride * r) := by
  induction fuel generalizing i with
  | zero =>
    have hnone : readBound f - i = 0 := by omega
    simp [strideLoop, hnone]
  | succ fuel ih =>
    have hrest := ih (i := i + stride) (by omega)
    by_cases hin : i + confOff < readBound f
    · have hcount : (readBound f - i) / stride = (readBound f - (i + stride)) / stride + 1 := by
        rw [Nat.div_eq_sub_div (by omega) (by omega), Nat.sub_sub]
      have hnext (r : Nat) : i + stride * (r + 1) = i + stride + stride * r := by rw [Nat.mul_succ]; omega
      have hi : i < readBound f := by omega
      simp [strideLoop, hi, hin, hrest, hcount, List.range_succ_eq_map, hnext, recordAt]
    · have hcut : (readBound f - i) / stride = 0 := Nat.div_eq_of_lt (by omega)
      have hpast : (readBound f - (i + stride)) / stride = 0 := Nat.div_eq_of_lt (by omega)
      simp [strideLoop, hin, hrest, hcut, hpast]

/-- The records of R131, with the document's strides. -/
theorem classificationCandidates_eq_map {c : Config} {f : Frame} (hfirst : c.clsFirst = 1) (hstride : c.clsStride = 2) :
    classificationCandidates c f =
      (List.range ((readBound f - 1) / 2)).map fun r => recordAt f .classification 1 (1 + 2 * r) := by
  rw [classificationCandidates, hfirst, hstride, strideLoop_eq_map rfl (by omega)]

/-- The records of R132, with the document's strides. -/
theorem detectionCandidates_eq_map {c : Config} {f : Frame} (hfirst : c.detFirst = 1) (hstride : c.detStride = 6)
    (hconf : c.detConfOff = 5) :
    detectionCandidates c f =
      (List.range ((readBound f - 1) / 6)).map fun r => recordAt f .detection 5 (1 + 6 * r) := by
  rw [detectionCandidates, hfirst, hstride, hconf, strideLoop_eq_map rfl (by omega)]

/-- Settles O26: record `r` begins at `1 + 2 * r`, with its confidence one byte on. The obligation's
plain name belongs to the model's function. -/
theorem classificationCandidates_of_frame : Obligations.ClassificationCandidates := by
  intro s f hfirst hstride hcmd hlen
  refine (State.extracted_of hcmd s _).trans ?_
  simp only [classificationCandidates_eq_map hfirst hstride, readBound_of_payload_length hlen, recordAt,
    Nat.add_right_comm 1 _ 1]

/-- Settles O27: record `r` begins at `1 + 6 * r`, with its confidence five bytes on. -/
theorem detectionCandidates_of_frame : Obligations.DetectionCandidates := by
  intro s f hfirst hstride hconf hcmd hlen
  refine (State.extracted_of hcmd s _).trans ?_
  simp only [detectionCandidates_eq_map hfirst hstride hconf, readBound_of_payload_length hlen, recordAt,
    Nat.add_right_comm 1 _ 5]

end Sys2Proof.Machine
end

section
/-!
The vote on a sequence (42_vote_smoother.md R152, R153): the last index of an id, the order in which one id is behind another,
and the one id that every other stands behind.
-/

namespace Sys2Proof.Machine

/-! ## The last index of an id -/

section
variable {w : List Byte} {j k : Byte}

theorem lastIdx_lt_length (hk : k ∈ w) : lastIdx w k < w.length := by
  have := List.length_pos_of_mem hk
  simp only [lastIdx]
  omega

/-- The first index from the end is the last index from the start. -/
theorem getElem?_lastIdx (hk : k ∈ w) : w[lastIdx w k]? = some k := by
  have hrev : k ∈ w.reverse := List.mem_reverse.2 hk
  have hlt := List.idxOf_lt_length_of_mem hrev
  have hlt' : w.reverse.idxOf k < w.length := List.length_reverse (as := w) ▸ hlt
  exact (List.getElem?_reverse hlt').symm.trans (List.getElem?_eq_some_iff.2 ⟨hlt, List.getElem_idxOf hlt⟩)

/-- Any place where an id stands in a sequence is at or after the first one. -/
theorem idxOf_le_of_getElem? {i : Nat} (h : w[i]? = some k) : w.idxOf k ≤ i := by
  obtain ⟨hi, hik⟩ := List.getElem?_eq_some_iff.1 h
  refine Nat.le_of_not_lt fun hlt => ?_
  have hne : (w[i] == k) = false := List.not_of_lt_findIdx (p := (· == k)) hlt
  exact absurd hik (ne_of_beq_false hne)

theorem le_lastIdx {i : Nat} (h : w[i]? = some k) : i ≤ lastIdx w k := by
  obtain ⟨hi, -⟩ := List.getElem?_eq_some_iff.1 h
  have hrev : w.reverse[w.length - 1 - i]? = some k := by
    rw [List.getElem?_reverse (by omega), ← h]
    congr 1
    omega
  have := idxOf_le_of_getElem? hrev
  simp only [lastIdx]
  omega

/-- The last index of an id is the one place where it stands and after which it does not. -/
theorem lastIdx_eq_of_isLast {i : Nat} (h : w[i]? = some k) (hlast : ∀ m, w[m]? = some k → m ≤ i) : lastIdx w k = i :=
  Nat.le_antisymm (hlast _ (getElem?_lastIdx (List.mem_of_getElem? h))) (le_lastIdx h)

/-- Ids that occur have different last indexes. -/
theorem lastIdx_inj (hj : j ∈ w) (hk : k ∈ w) (h : lastIdx w j = lastIdx w k) : j = k :=
  Option.some.inj ((getElem?_lastIdx hj).symm.trans (h ▸ getElem?_lastIdx hk))

theorem lastIdx_concat_self (w : List Byte) (k : Byte) : lastIdx (w ++ [k]) k = w.length :=
  lastIdx_eq_of_isLast (by simp) fun m hm => by
    obtain ⟨hlt, -⟩ := List.getElem?_eq_some_iff.1 hm
    rw [List.length_append, List.length_singleton] at hlt
    exact Nat.le_of_lt_succ hlt

/-! ## The order of the vote -/

theorem Behind.asymm (h : Behind w j k) : ¬ Behind w k j := by
  simp only [Behind] at h ⊢
  omega

theorem Behind.trans {i : Byte} (hij : Behind w i j) (hjk : Behind w j k) : Behind w i k := by
  simp only [Behind] at hij hjk ⊢
  omega

/-- Of two different ids that occur, one is behind the other. -/
theorem Behind.of_not (hj : j ∈ w) (hk : k ∈ w) (hne : j ≠ k) (h : ¬ Behind w j k) : Behind w k j := by
  have hidx : lastIdx w j ≠ lastIdx w k := fun he => hne (lastIdx_inj hj hk he)
  simp only [Behind] at h ⊢
  omega

/-! ## The foremost id -/

/-- Among ids that occur, if there are any, one has every other behind it. -/
theorem foremost_cases {ks : List Byte} (hks : ∀ k ∈ ks, k ∈ w) :
    (ks = [] ∧ foremost w ks = none) ∨
      ∃ k ∈ ks, foremost w ks = some k ∧ ∀ j ∈ ks, j ≠ k → Behind w j k := by
  induction ks with
  | nil => exact .inl ⟨rfl, rfl⟩
  | cons a ks ih =>
    obtain ⟨ha, hks⟩ := List.forall_mem_cons.1 hks
    refine .inr ?_
    obtain ⟨rfl, -⟩ | ⟨k, hk, hsome, hbehind⟩ := ih hks
    · exact ⟨a, List.mem_cons_self, by simp [foremost], by simp⟩
    · by_cases hka : Behind w k a
      · refine ⟨a, List.mem_cons_self, by simp only [foremost, hsome, if_pos hka], ?_⟩
        refine List.forall_mem_cons.2 ⟨fun hne => absurd rfl hne, fun j hj _ => ?_⟩
        by_cases hjk : j = k
        · exact hjk ▸ hka
        · exact (hbehind j hj hjk).trans hka
      · refine ⟨k, List.mem_cons_of_mem _ hk, by simp only [foremost, hsome, if_neg hka], ?_⟩
        exact List.forall_mem_cons.2 ⟨fun hne => .of_not (hks k hk) ha hne.symm hka, hbehind⟩

theorem voteSeq_of_ne_nil (h : w ≠ []) : ∃ k ∈ w, voteSeq w = .signal k ∧ ∀ j ∈ w, j ≠ k → Behind w j k := by
  obtain ⟨hnil, -⟩ | ⟨k, hk, hsome, hbehind⟩ := foremost_cases fun _ => id
  · exact absurd hnil h
  · exact ⟨k, hk, by simp only [voteSeq, hsome], hbehind⟩

/-- The result is the only id that every other id stands behind. -/
theorem voteSeq_eq_signal (hk : k ∈ w) (hbehind : ∀ j ∈ w, j ≠ k → Behind w j k) : voteSeq w = .signal k := by
  obtain ⟨k', hk', hvote, hbehind'⟩ := voteSeq_of_ne_nil (List.ne_nil_of_mem hk)
  by_cases heq : k = k'
  · exact heq ▸ hvote
  · exact absurd (hbehind' k hk heq) (hbehind k' hk' (Ne.symm heq)).asymm

end

/-- Settles O39. -/
theorem voteSeqIsForemost : Obligations.VoteSeqIsForemost :=
  ⟨rfl, fun _ => voteSeq_of_ne_nil, fun _ _ hk => ⟨getElem?_lastIdx hk, fun _ => le_lastIdx⟩⟩

/-- Settles O40: a strict plurality is ahead by count; of distinct samples each occurs once, and the last one stands at the
greatest index. -/
theorem pluralityAndDistinctSamples : Obligations.PluralityAndDistinctSamples := by
  refine ⟨fun w k hk h => voteSeq_eq_signal hk fun j hj hne => .inl (h j hj hne), fun w k h => ?_⟩
  have hk : k ∈ w ++ [k] := List.mem_append_right w List.mem_cons_self
  refine voteSeq_eq_signal hk fun j hj hne => .inr ⟨?_, ?_⟩
  · rw [h.count, if_pos hj, h.count, if_pos hk]
  · have hlt := lastIdx_lt_length hj
    rw [List.length_append, List.length_singleton] at hlt
    have hidx : lastIdx (w ++ [k]) j ≠ lastIdx (w ++ [k]) k := fun he => hne (lastIdx_inj hj hk he)
    rw [lastIdx_concat_self] at hidx ⊢
    omega

end Sys2Proof.Machine
end

section
/-!
The vote on the counter registers (42_vote_smoother.md R151): the id with the highest count, on a tie the most recent one. In
every smoother that meets the invariant it is the vote on the window as a sequence (R152).
-/

namespace Sys2Proof.Machine

/-! ## The vote on the counters (R151) -/

theorem le_greatest {ns : List Nat} {n : Nat} (h : n ∈ ns) : n ≤ greatest ns := by
  induction ns with
  | nil => cases h
  | cons m ns ih =>
    rcases List.mem_cons.1 h with rfl | h
    · exact Nat.le_max_left ..
    · exact Nat.le_trans (ih h) (Nat.le_max_right ..)

/-- No id of the list has a later last occurrence than its most recent id. -/
theorem last_le_of_mostRecent {last : Nat → Nat} {ks : List Nat} {k : Nat} (h : mostRecent last ks = some k) :
    ∀ j ∈ ks, last j ≤ last k := by
  induction ks generalizing k with
  | nil => cases h
  | cons a ks ih =>
    obtain ⟨rfl, hnone⟩ | ⟨m, -, hsome⟩ := mostRecent_cases last ks
    · simp only [mostRecent, Option.some.injEq] at h
      simp [h]
    · have hm := ih hsome
      simp only [mostRecent, hsome] at h
      split at h <;> cases h
      · next hlt => exact List.forall_mem_cons.2 ⟨Nat.le_refl _, fun j hj => Nat.le_trans (hm j hj) (Nat.le_of_lt hlt)⟩
      · next hge => exact List.forall_mem_cons.2 ⟨Nat.le_of_not_lt hge, hm⟩

/-- The tied ids are those that no id exceeds in count. -/
theorem mem_tiedIds_iff {c : Config} {mv : Mv} {k : Nat} : k ∈ tiedIds c mv ↔
    k < c.numIds ∧ ∀ j < c.numIds, Counters.read mv.cnt j ≤ Counters.read mv.cnt k := by
  simp only [tiedIds, List.mem_filter, List.mem_range, decide_eq_true_eq]
  refine and_congr_right fun hk => ⟨fun h j hj => ?_, fun h => ?_⟩
  · exact h ▸ le_greatest (List.mem_map_of_mem (List.mem_range.2 hj))
  · have hmem {j : Nat} (hj : j < c.numIds) :
        Counters.read mv.cnt j ∈ (List.range c.numIds).map (Counters.read mv.cnt) :=
      List.mem_map_of_mem (List.mem_range.2 hj)
    obtain ⟨m, hm, heq⟩ := List.mem_map.1 (greatest_mem (List.ne_nil_of_mem (hmem hk)))
    exact Nat.le_antisymm (le_greatest (hmem hk)) (heq ▸ h m (List.mem_range.1 hm))

/-- A window that holds anything resolves to a tied id, after whose last occurrence no tied id occurs. -/
theorem vote_mem_tiedIds {c : Config} (hK : 1 ≤ c.numIds) {mv : Mv} (h : mv.wlen ≠ 0) :
    ∃ k ∈ tiedIds c mv, vote c mv = .signal (BitVec.ofNat 8 k) ∧
      ∀ j ∈ tiedIds c mv, Counters.read mv.last j ≤ Counters.read mv.last k := by
  obtain ⟨hnil, -⟩ | ⟨k, hk, hsome⟩ := mostRecent_cases (Counters.read mv.last) (tiedIds c mv)
  · exact absurd hnil (tiedIds_ne_nil hK mv)
  · exact ⟨k, hk, by simp [vote, h, hsome], last_le_of_mostRecent hsome⟩

/-! ## The counters and the window (R37) -/

theorem Mv.window_length (mv : Mv) : mv.window.length = mv.wlen := Memory.firstBytes_length _ _

theorem Mv.window_of_wlen_zero {mv : Mv} (h : mv.wlen = 0) : mv.window = [] :=
  List.length_eq_zero_iff.1 (mv.window_length.trans h)

theorem Mv.window_getElem?_eq_some {mv : Mv} {i : Nat} {id : Byte} :
    mv.window[i]? = some id ↔ i < mv.wlen ∧ Memory.read mv.win i = id := by
  simp only [List.getElem?_eq_some_iff, Mv.window, Memory.firstBytes_getElem, Memory.firstBytes_length, exists_prop]

section
variable {c : Config} {mv : Mv} {id : Byte}

/-- R37(c): the counter of a valid id is its count in the window. -/
theorem Mv.Inv.count_window (h : mv.Inv c) (hid : IdValid c id) :
    mv.window.count id = Counters.read mv.cnt id.toNat := by
  rw [h.counts _ hid, List.count_eq_countP]
  refine List.countP_congr fun x _ => ?_
  simp [BitVec.toNat_inj]

/-- R37(e): the last-occurrence register of an id that occurs is its last index in the window. -/
theorem Mv.Inv.lastIdx_window (h : mv.Inv c) (hmem : id ∈ mv.window) :
    lastIdx mv.window id = Counters.read mv.last id.toNat := by
  have hid := h.window_valid id hmem
  obtain ⟨hlt, hat, hmax⟩ := h.lasts _ hid (h.count_window hid ▸ List.count_pos_iff.2 hmem)
  refine lastIdx_eq_of_isLast (Mv.window_getElem?_eq_some.2 ⟨hlt, BitVec.eq_of_toNat_eq hat⟩) fun i hi => ?_
  obtain ⟨hi, hread⟩ := Mv.window_getElem?_eq_some.1 hi
  exact hmax i hi (congrArg BitVec.toNat hread)

/-- If a window holds anything, the highest count is positive. -/
theorem Mv.Inv.highest_count_pos (h : mv.Inv c) (hne : mv.wlen ≠ 0) {k : Nat}
    (hk : ∀ j < c.numIds, Counters.read mv.cnt j ≤ Counters.read mv.cnt k) : 0 < Counters.read mv.cnt k := by
  have hmem : Memory.read mv.win 0 ∈ mv.window :=
    List.mem_of_getElem? (Mv.window_getElem?_eq_some.2 ⟨Nat.pos_of_ne_zero hne, rfl⟩)
  have hid := h.window_valid _ hmem
  have hpos : 0 < Counters.read mv.cnt (Memory.read mv.win 0).toNat :=
    h.count_window hid ▸ List.count_pos_iff.2 hmem
  exact Nat.lt_of_lt_of_le hpos (hk _ hid)

end

/-! ## The vote is the document's (R151, R152) -/

/-- An id below K is the number of its byte, since K is at most 255 (R6). -/
theorem toNat_ofNat_of_lt_numIds {c : Config} (hc : c.Legal) {k : Nat} (hk : k < c.numIds) :
    (BitVec.ofNat 8 k).toNat = k := by
  obtain ⟨-, ⟨-, hK, -⟩, -⟩ := hc
  rw [BitVec.toNat_ofNat]
  omega

/-- Settles O37: the tied ids have all been counted, so they have different last occurrences. -/
theorem voteIsHighestThenMostRecent : Obligations.VoteIsHighestThenMostRecent := by
  intro c mv ⟨_, ⟨hK, _⟩, _⟩ h
  refine ⟨vote_of_empty c, fun hne => ?_⟩
  obtain ⟨k, hk, hvote, hrecent⟩ := vote_mem_tiedIds hK hne
  obtain ⟨hkK, hhighest⟩ := mem_tiedIds_iff.1 hk
  refine ⟨k, hkK, hvote, hhighest, fun j hj hjk hcnt => ?_⟩
  have hkpos := h.highest_count_pos hne hhighest
  have hjtied : j ∈ tiedIds c mv := mem_tiedIds_iff.2 ⟨hj, hcnt ▸ hhighest⟩
  obtain ⟨-, -, hdistinct⟩ := countsAddUpToWindow c mv h
  exact Nat.lt_of_le_of_ne (hrecent j hjtied) (hdistinct j k hj hkK hjk (hcnt ▸ hkpos) hkpos)

/-- Settles O38: with the registers' counts and last occurrences those of the window, the id of O37 is the one that every
other stands behind. -/
theorem voteIsVoteSeqOfWindow : Obligations.VoteIsVoteSeqOfWindow := by
  intro c mv hc h
  obtain ⟨hempty, hnonempty⟩ := voteIsHighestThenMostRecent c mv hc h
  by_cases hw : mv.wlen = 0
  · rw [hempty hw, Mv.window_of_wlen_zero hw]; rfl
  · obtain ⟨k, hk, hvote, hhighest, hrecent⟩ := hnonempty hw
    have hid := idValid_ofNat hc hk
    have hkNat := toNat_ofNat_of_lt_numIds hc hk
    have hcount := h.count_window hid
    rw [hkNat] at hcount
    have hmem : BitVec.ofNat 8 k ∈ mv.window :=
      List.count_pos_iff.1 (hcount ▸ h.highest_count_pos hw hhighest)
    refine hvote.trans (voteSeq_eq_signal hmem fun j hj hne => ?_).symm
    have hjid := h.window_valid j hj
    have hjk : j.toNat ≠ k := fun he => hne (BitVec.eq_of_toNat_eq (he.trans hkNat.symm))
    rw [Behind, hcount, h.count_window hjid, h.lastIdx_window hj, h.lastIdx_window hmem, hkNat]
    exact (Nat.lt_or_eq_of_le (hhighest _ hjid)).imp_right fun he => ⟨he, hrecent _ hjid hjk he⟩

end Sys2Proof.Machine
end

section
/-!
The smoother's operations (42_vote_smoother.md R154 to R160): what each answers and shows at the port, that they are the same
operations on the window held as a sequence (R152), and that a full window is frozen until `clear` (R163).
-/

namespace Sys2Proof.Machine

/-! ## At the port (R84, R85) -/

/-- An edge with `fd_nop` beside a word of the MV port shows what the word's instruction returned. -/
theorem clockEdge_mvWord {s t : State} {w : OpWord} (h : exec (decodeMvWord w) s = .next t) :
    ∃ u, clockEdge false (OpWord.make 0 0) w s = .next u ∧ u.port.res = resolvedBy (decodeMvWord w) t := by
  have hnop : exec (decodeFdWord (OpWord.make 0 0)) s = .next s := by rw [decodeFdWord_make_zero]; rfl
  exact ⟨_, clockEdge_both hnop h, rfl⟩

/-! ## Each operation (R155 to R159) -/

/-- Settles O32: the sentinel and 255 are at or above K in a legal configuration. -/
theorem invalidSampleIgnored : Obligations.InvalidSampleIgnored := by
  intro s
  have hignored (id : Byte) (hid : s.cfg.numIds ≤ id.toNat) :
      exec (.sample id) s = .next (s.after s.fd s.mv (.sample none)) :=
    exec_sample_ignored (.inl (Nat.not_lt_of_le hid))
  refine ⟨hignored, fun hc => ?_⟩
  obtain ⟨-, ⟨-, h255, hsentinel⟩, -⟩ := hc
  exact ⟨hignored _ hsentinel, hignored 255 h255⟩

/-- Settles O33. -/
theorem fullWindowDropsSample : Obligations.FullWindowDropsSample :=
  fun _ _ _ hfull => exec_sample_ignored (.inr hfull)

/-- R157: an accepted sample counts no other id. -/
theorem Mv.read_accept_cnt_other (mv : Mv) {id : Byte} {k : Nat} (hk : k ≠ id.toNat) :
    Counters.read (mv.accept id).cnt k = Counters.read mv.cnt k := by
  rw [Mv.accept_cnt, Counters.read_write_other _ hk]

/-- R157: an accepted sample is the last occurrence of no other id. -/
theorem Mv.read_accept_last_other (mv : Mv) {id : Byte} {k : Nat} (hk : k ≠ id.toNat) :
    Counters.read (mv.accept id).last k = Counters.read mv.last k := by
  rw [Mv.accept_last, Counters.read_write_other _ hk]

/-- R157: an early decision is a signal in every configuration that has a valid id. -/
theorem acceptResult_ne_noSignal {c : Config} (hK : 1 ≤ c.numIds) (mv : Mv) (id : Byte) :
    acceptResult c mv id ≠ some .noSignal := by
  obtain ⟨k, -, hvote, -⟩ := vote_mem_tiedIds hK (mv := mv.accept id) (Nat.succ_ne_zero _)
  unfold acceptResult
  split <;> simp [hvote]

/-- Settles O34. -/
theorem sampleAccepted : Obligations.SampleAccepted := by
  intro s id hid hroom
  have hexec := exec_sample_accepted hid hroom
  refine ⟨_, _, hexec, rfl, Memory.read_write_same .., fun a ha => Memory.read_write_other _ (Nat.ne_of_lt ha) _,
    by simp, by simp, fun k _ hk => ⟨s.mv.read_accept_cnt_other hk, fun _ => s.mv.read_accept_last_other hk⟩,
    fun h => if_pos h, fun h => if_neg h, acceptResult_ne_noSignal (Nat.one_le_of_lt hid) _ _,
    decide_eq_false (Nat.succ_ne_zero _), decide_eq_true_iff, ?_⟩
  rw [← decodeMvWord_make_one] at hexec
  obtain ⟨t, ht, hres⟩ := clockEdge_mvWord hexec
  exact ⟨t, ht, hres.trans (by rw [decodeMvWord_make_one]; rfl)⟩

/-- Settles O35. -/
theorem evaluateAnswersVote : Obligations.EvaluateAnswersVote := by
  intro s
  refine ⟨rfl, vote_of_empty s.cfg, ?_⟩
  have hexec : exec (decodeMvWord (OpWord.make 2 0)) s = .next (s.after s.fd s.mv (.evaluate (vote s.cfg s.mv))) := by
    rw [decodeMvWord_make_two]; rfl
  obtain ⟨t, ht, hres⟩ := clockEdge_mvWord hexec
  exact ⟨t, ht, hres.trans (by rw [decodeMvWord_make_two]; rfl)⟩

/-- A canonical counter file that reads 0 at every index of its range lists nothing. -/
theorem Counters.eq_nil_of_read_zero {m : Counters} {bound : Nat}
    (hm : Counters.wf m = true ∧ Cells.below bound m = true) (hzero : ∀ k < bound, Counters.read m k = 0) : m = [] := by
  obtain ⟨hwf, hbelow⟩ := hm
  cases m with
  | nil => rfl
  | cons x m =>
    obtain ⟨k, v⟩ := x
    obtain ⟨hv, -⟩ := Cells.wf_cons.1 hwf
    have hk : k < bound := by simpa using List.all_eq_true.1 hbelow (k, v) List.mem_cons_self
    have hread : Counters.read ((k, v) :: m) k = v := if_pos rfl
    exact absurd (hread.symm.trans (hzero k hk)) hv

/-- In the invariant, an empty window has no count left to clear. -/
theorem Mv.Inv.emptied_eq {c : Config} {mv : Mv} (h : mv.Inv c) (hw : mv.wlen = 0) : mv.emptied = mv := by
  have hcnt : mv.cnt = [] := Counters.eq_nil_of_read_zero h.cnt_wf fun k hk => by
    rw [h.counts k hk, Mv.window_of_wlen_zero hw]; rfl
  rw [Mv.emptied, ← hw, ← hcnt]

/-- Settles O36. -/
theorem clearEmptiesWindow : Obligations.ClearEmptiesWindow := by
  intro s
  refine ⟨s.mv.emptied, rfl, rfl, fun _ _ => rfl, rfl, fun h hw => h.emptied_eq hw, rfl, rfl, fun hN => ?_⟩
  obtain ⟨-, -, -, -, -, hfull⟩ := mvAfterReset_of_empty (s := s.after s.fd s.mv.emptied .clear) hN rfl rfl
  exact hfull

/-! ## The window held as a sequence (R152, R154) -/

/-- `sample` appends to the window and returns the vote of the window it leaves as `sampleSeq` does. -/
theorem exec_sample_window {s : State} (hc : s.cfg.Legal) (h : s.mv.Inv s.cfg) (id : Byte) :
    ∃ mv' r, exec (.sample id) s = .next (s.after s.fd mv' (.sample r)) ∧
      (mv'.window, r) = sampleSeq s.cfg s.mv.window id := by
  have hlen := s.mv.window_length
  by_cases hacc : IdValid s.cfg id ∧ s.mv.wlen < s.cfg.windowCap
  · have ⟨hid, hroom⟩ := hacc
    refine ⟨_, _, exec_sample_accepted hid hroom, ?_⟩
    rw [acceptResult, voteIsVoteSeqOfWindow s.cfg _ hc (h.accept hid hroom), Mv.accept_window, sampleSeq, hlen,
      if_pos hacc]
  · refine ⟨_, _, exec_sample_ignored ?_, ?_⟩
    · rw [Decidable.not_and_iff_not_or_not] at hacc
      exact hacc.imp_right fun hfull => Nat.le_antisymm h.wlen_le (Nat.le_of_not_lt hfull)
    · rw [sampleSeq, hlen, if_neg hacc]

/-- Settles O42, operation by operation. -/
theorem smootherRefinesWindow : Obligations.SmootherRefinesWindow := by
  intro s hc h
  refine ⟨fun id => ?_, ⟨_, rfl, ?_, rfl⟩, ⟨_, rfl, rfl⟩⟩
  · obtain ⟨mv', r, hexec, hwin⟩ := exec_sample_window hc h id
    exact ⟨_, r, hexec, rfl, hwin⟩
  · rw [← voteIsVoteSeqOfWindow s.cfg s.mv hc h]; rfl

/-! ## A full window (R163) -/

/-- With a full window, an `MV` instruction other than `clear` changes no register and returns nothing or the same vote. -/
theorem exec_mv_full {s : State} {i : Instr} (hfull : s.mv.wlen = s.cfg.windowCap) (hi : unitOf i = .mv)
    (hclear : i ≠ .clear) : ∃ es, exec i s = .next (s.afterAll s.fd s.mv es) ∧
      ∀ e ∈ es, e = .sample none ∨ e = .evaluate (vote s.cfg s.mv) := by
  cases i with
  | mvNop => exact ⟨[], rfl, nofun⟩
  | sample id => exact ⟨[.sample none], exec_sample_ignored (.inr hfull), by simp⟩
  | evaluate => exact ⟨[.evaluate (vote s.cfg s.mv)], rfl, by simp⟩
  | clear => exact absurd rfl hclear
  | _ => cases hi

/-- Settles O43, by induction on the instructions. -/
theorem fullWindowIsFrozen : Obligations.FullWindowIsFrozen := by
  intro s is hfull his
  induction is generalizing s with
  | nil => exact ⟨s, [], rfl, rfl, rfl, nofun⟩
  | cons i is ih =>
    obtain ⟨⟨hi, hclear⟩, his⟩ := List.forall_mem_cons.1 his
    obtain ⟨es, hexec, hes⟩ := exec_mv_full hfull hi hclear
    obtain ⟨t, es', ht, hmv, hevents, hes'⟩ := ih (s.afterAll s.fd s.mv es) hfull his
    refine ⟨t, es' ++ es, (execAll_cons hexec is).trans ht, hmv, ?_, ?_⟩
    · rw [hevents, List.append_assoc]; rfl
    · exact List.forall_mem_append.2 ⟨hes', hes⟩

end Sys2Proof.Machine
end

section
/-!
No operation faults or finds its registers out of range (60_exceptions.md R180, 93_implementation_defined.md U11): in the
invariant every operation of each unit completes but the reserved word, so a step is refused only for what was issued.
-/

namespace Sys2Proof.Machine

/-! ## Which operations complete (R100, R130, R154) -/

/-- An operation of the FD port other than the reserved word completes in the invariant (R100, R109, R110). -/
theorem exec_fdWord_completes {s : State} (h : s.Inv) {w : OpWord} (hne : decodeFdWord w ≠ .fdReserved) :
    ∃ t, exec (decodeFdWord w) s = .next t := by
  obtain ⟨hfd, hslot⟩ := decodeFdWord_unit_slot w
  cases hw : decodeFdWord w with
  | fdNop | reset => exact ⟨_, rfl⟩
  | feed b => exact exec_feed_completes h.legal h.fd b
  | fdReserved => exact absurd hw hne
  | mvNop | sample _ | evaluate | clear => rw [hw] at hfd; cases hfd
  | extractKeypoint _ | extractClassification _ | extractDetection _ | extractReserved _ => rw [hw] at hfd; cases hfd
  | _ => rw [hw] at hslot; cases hslot

/-- Every operation of the smoother completes in the invariant (R154, R158 to R160). -/
theorem exec_mv_completes {s : State} (h : s.Inv) {i : Instr} (hi : unitOf i = .mv) : ∃ t, exec i s = .next t := by
  cases i with
  | mvNop | evaluate | clear => exact ⟨_, rfl⟩
  | sample id =>
    obtain ⟨mv', r, hexec, -⟩ := exec_sample_window h.legal h.mv id
    exact ⟨_, hexec⟩
  | _ => cases hi

/-- What an issue stands for was read from a word of a port, from a byte at the decoder's position, or from a frame (R86,
R88). -/
theorem decodeIn_ok_cases {s : State} {i : Issue} {instr : Instr} (h : decodeIn s i = .ok instr) :
    (∃ w, instr = decodeFdWord w) ∨ (∃ w, instr = decodeMvWord w) ∨ (∃ b, instr = decodeByte s.cfg s.fd.slot b) ∨
      ∃ f, instr = decodeFrame s.cfg f := by
  cases i with
  | fdWord w => cases h; exact .inl ⟨w, rfl⟩
  | mvWord w => cases h; exact .inr (.inl ⟨w, rfl⟩)
  | byte b => cases h; exact .inr (.inr (.inl ⟨b, rfl⟩))
  | frameBytes bs =>
    cases hf : parseFrame s.cfg bs with
    | ok f => simp only [decodeIn, decode, hf] at h; cases h; exact .inr (.inr (.inr ⟨f, rfl⟩))
    | error e => simp only [decodeIn, decode, hf] at h; cases h
  | extractReturned =>
    cases hf : returnedFrame s.events with
    | some f => simp only [decodeIn, decode, hf] at h; cases h; exact .inr (.inr (.inr ⟨f, rfl⟩))
    | none => simp only [decodeIn, decode, hf] at h; cases h

/-- Every instruction that an issue stands for completes in the invariant, except the reserved word (R82). -/
theorem exec_decoded_completes {s : State} (h : s.Inv) {i : Issue} {instr : Instr} (hi : decodeIn s i = .ok instr)
    (hne : instr ≠ .fdReserved) : ∃ t, exec instr s = .next t := by
  obtain ⟨w, rfl⟩ | ⟨w, rfl⟩ | ⟨b, rfl⟩ | ⟨f, rfl⟩ := decodeIn_ok_cases hi
  · exact exec_fdWord_completes h hne
  · exact exec_mv_completes h (unitOf_decodeMvWord w)
  · rw [exec_decodeByte]; exact exec_feed_completes h.legal h.fd b
  · exact ⟨_, exec_decodeFrame s f⟩

/-! ## Why a stimulus is refused (U11) -/

/-- An edge completes in the invariant, or is refused for the reserved word at the FD port. -/
theorem clockEdge_completes_or_reserved {s : State} (h : s.Inv) (rst : Bool) (fdOp mvOp : OpWord) :
    (∃ t, clockEdge rst fdOp mvOp s = .next t) ∨ clockEdge rst fdOp mvOp s = .refused .reservedFdOp := by
  cases rst with
  | true => exact .inl ⟨_, rfl⟩
  | false =>
    by_cases hw : decodeFdWord fdOp = .fdReserved
    · exact .inr (by simp [clockEdge, hw, exec, execFdReserved])
    · obtain ⟨a, ha⟩ := exec_fdWord_completes h hw
      obtain ⟨b, hb⟩ := exec_mv_completes (exec_keeps_inv h ha) (unitOf_decodeMvWord mvOp)
      exact .inl ⟨_, clockEdge_both ha hb⟩

/-- A stimulus completes in the invariant, or is refused for the reserved word or for standing for no instruction. -/
theorem perform_completes_or_refused {s : State} (h : s.Inv) (x : Stimulus) :
    (∃ t, perform x s = .next t) ∨ perform x s = .refused .reservedFdOp ∨
      ∃ e, perform x s = .refused (.undecodable e) := by
  cases x with
  | op i =>
    cases hi : decodeIn s i with
    | error e => exact .inr (.inr ⟨e, perform_op_error hi⟩)
    | ok instr =>
      rw [perform_op_ok hi]
      by_cases hne : instr = .fdReserved
      · subst hne; exact .inr (.inl rfl)
      · exact .inl (exec_decoded_completes h hi hne)
  | edge rst fdOp mvOp => exact (clockEdge_completes_or_reserved h rst fdOp mvOp).imp_right .inl
  | hardwareReset => exact .inl ⟨_, rfl⟩

/-- U11: in the invariant no step finds its registers out of range. -/
theorem step_ne_unreachableState {s : State} (h : s.Inv) : step s ≠ .refused .unreachableState := by
  cases hp : s.pending with
  | nil => simp [step, hp]
  | cons x rest =>
    rw [step_eq_perform hp h.legal]
    obtain ⟨t, ht⟩ | hr | ⟨e, he⟩ := perform_completes_or_refused (h.setPending rest) x
    · simp [ht]
    · simp [hr]
    · simp [he]

/-- Settles O49: there is no fault to answer (R180), and taking the issue off the pending list keeps the invariant and what
the issue stands for. -/
theorem operationsAreTotal : Obligations.OperationsAreTotal := by
  refine ⟨fun _ _ => nofun, fun s h => ⟨step_ne_unreachableState h, fun i rest instr hp hi hne => ?_⟩⟩
  rw [step_op hp h.legal hi]
  exact exec_decoded_completes (h.setPending rest) ((decodeIn_setPending s rest i).trans hi) hne

end Sys2Proof.Machine
end

section
/-!
Reset and idling (70_reset_and_hazards.md R210, R213, R227): without a stimulus nothing happens, the hardware reset is `reset`
and then `clear`, and two states that agree on everything live cannot be told apart, so no state survives the hardware reset.
-/

namespace Sys2Proof.Machine

/-! ## Nothing issued (R227) -/

theorem step_of_nothing_pending {s : State} (hp : s.pending = []) : step s = .next s := by
  simp only [step, hp]

/-- Settles O51, by induction on the number of steps. -/
theorem nothingIssuedNothingHappens : Obligations.NothingIssuedNothingHappens := by
  intro s n hp
  induction n with
  | zero => rfl
  | succ n ih => exact (run_succ (step_of_nothing_pending hp) n).trans ih

/-! ## The hardware reset (R210) -/

/-- Settles O52: the hardware reset writes what `reset` and `clear` write, and `rst` = 1 at an edge performs it before the
operation words are read. -/
theorem hardwareResetIsResetThenClear : Obligations.HardwareResetIsResetThenClear := by
  intro s hc
  have ⟨⟨hN, _⟩, _⟩ := hc
  refine ⟨_, _, _, rfl, rfl, rfl, rfl, rfl, rfl, rfl, fun _ _ => rfl, fdAfterReset_of_waitStart rfl,
    mvAfterReset_of_empty hN rfl rfl, fun rest fdOp mvOp hp => ?_⟩
  exact ⟨_, step_eq_perform hp hc, rfl, fdAfterReset_of_waitStart rfl, mvAfterReset_of_empty hN rfl rfl, rfl, rfl⟩

/-! ## What is live decides every operation (R213) -/

/-- The position that an alternative of the view stands for. -/
def FdView.slot : FdView → ByteSlot
  | .waitStart => .waitStart
  | .header [] => .command
  | .header [_] => .lenLo
  | .header (_ :: _ :: _) => .lenHi
  | .payload .. => .payload
  | .trailer .. => .trailer
  | .terminator .. => .terminator

/-- The position is live: the view shows it (R31, R32). -/
theorem Fd.slot_view (c : Config) (fd : Fd) : (fd.view c).slot = fd.slot := by
  cases hst : fd.st with
  | header =>
    obtain hh | hh | hh : fd.hcnt = 0 ∨ fd.hcnt = 1 ∨ fd.hcnt = 2 := by omega
    all_goals simp [Fd.view, Fd.slot, FdView.slot, hst, hh]
  | waitStart | payload | trailer | terminator => simp only [Fd.view, Fd.slot, FdView.slot, hst]

/-- A FRAME row reads the configuration only (R130): it completes alike in every state that has the same. -/
theorem exec_sx_local {i : Instr} {s t : State} (hi : unitOf i = .sx) (h : exec i s = .next t) :
    ∃ cs, ∀ u : State, u.cfg = s.cfg → exec i u = .next (u.after u.fd u.mv (.extract cs)) := by
  cases i with
  | extractKeypoint f | extractReserved f =>
    exact ⟨[], fun u hcfg => State.extracted_of (hcfg ▸ (State.extracted_next h).1) u []⟩
  | extractClassification f =>
    exact ⟨classificationCandidates s.cfg f, fun u hcfg =>
      hcfg ▸ State.extracted_of (hcfg ▸ (State.extracted_next h).1) u (classificationCandidates u.cfg f)⟩
  | extractDetection f =>
    exact ⟨detectionCandidates s.cfg f, fun u hcfg =>
      hcfg ▸ State.extracted_of (hcfg ▸ (State.extracted_next h).1) u (detectionCandidates u.cfg f)⟩
  | _ => cases hi

/-- The outcome `o` reached from `t` is a match of the state `s'` reached from `s`: it completes, with the same results, in
a state that agrees with `s'` on everything live. -/
def SameOutcome (s t s' : State) (o : Host.Outcome State Fault Refusal) : Prop :=
  ∃ (t' : State) (es : List Event), o = .next t' ∧ SameLive s' t' ∧ s'.events = es ++ s.events ∧ t'.events = es ++ t.events

section
variable {s t : State}

/-- Operations with the same result keep the agreement if the registers they leave agree. -/
theorem SameLive.after (h : SameLive s t) {fs ft : Fd} {ms mt : Mv} (e : Event)
    (hfd : fs.Inv s.cfg ∧ ft.Inv t.cfg) (hview : fs.view s.cfg = ft.view t.cfg)
    (hmv : ms.Inv s.cfg ∧ mt.Inv t.cfg) (hwin : ms.window = mt.window) :
    SameOutcome s t (s.after fs ms e) (.next (t.after ft mt e)) :=
  ⟨_, [e], rfl, ⟨h.cfg, h.legal, hfd, hmv, hview, hwin⟩, rfl, rfl⟩

/-- An operation that writes no register keeps the agreement. -/
theorem SameLive.after_same (h : SameLive s t) (e : Event) :
    SameOutcome s t (s.after s.fd s.mv e) (.next (t.after t.fd t.mv e)) :=
  h.after e h.fd h.view h.mv h.window

theorem SameLive.unchanged (h : SameLive s t) : SameOutcome s t s (.next t) := ⟨t, [], rfl, h, rfl, rfl⟩

theorem SameLive.slot_eq (h : SameLive s t) : s.fd.slot = t.fd.slot := by
  rw [← Fd.slot_view s.cfg, ← Fd.slot_view t.cfg, h.view]

theorem SameLive.wlen_eq (h : SameLive s t) : s.mv.wlen = t.mv.wlen := by
  rw [← Mv.window_length, ← Mv.window_length, h.window]

/-- The vote is a function of the window (R152). -/
theorem vote_eq_of_window_eq {c : Config} (hc : c.Legal) {m m' : Mv} (hm : m.Inv c) (hm' : m'.Inv c)
    (hwin : m.window = m'.window) : vote c m = vote c m' := by
  rw [voteIsVoteSeqOfWindow c m hc hm, voteIsVoteSeqOfWindow c m' hc hm', hwin]

/-! ### `FD` instructions -/

/-- The view decides what `feed` returns and the view after it (R31). -/
theorem SameLive.exec_feed (h : SameLive s t) {s' : State} {b : Byte} (hs : exec (.feed b) s = .next s') :
    SameOutcome s t s' (exec (.feed b) t) := by
  obtain ⟨hfs, hft⟩ := h.fd
  obtain ⟨fs, r, hsb, hfs', hvs⟩ := exec_feed_view h.legal hfs b
  obtain ⟨ft, r', htb, hft', hvt⟩ := exec_feed_view (h.cfg ▸ h.legal) hft b
  have hsame : (fs.view s.cfg, r) = (ft.view t.cfg, r') := by rw [hvs, hvt, h.view, h.cfg]
  obtain ⟨hview, rfl⟩ := Prod.mk.inj hsame
  obtain rfl := Host.Outcome.next.inj (hs.symm.trans hsb)
  exact htb ▸ h.after _ ⟨hfs', hft'⟩ hview h.mv h.window

theorem SameLive.exec_fd (h : SameLive s t) {i : Instr} {s' : State} (hi : unitOf i = .fd)
    (hs : exec i s = .next s') : SameOutcome s t s' (exec i t) := by
  obtain ⟨rfl, rfl⟩ | ⟨rfl, rfl⟩ | ⟨b, rfl | rfl, hfeed⟩ := exec_fd_next_feed hi hs
  · exact h.unchanged
  · exact h.after .reset ⟨h.fd.1.toWaitStart, h.fd.2.toWaitStart⟩ rfl h.mv h.window
  · exact h.exec_feed hfeed
  · rw [h.cfg, h.slot_eq, exec_decodeByte]
    exact h.exec_feed hfeed

/-! ### `MV` instructions -/

/-- The window decides whether a sample is accepted and what it returns (R154 to R157). -/
theorem SameLive.exec_sample (h : SameLive s t) {id : Byte} {s' : State} (hs : exec (.sample id) s = .next s') :
    SameOutcome s t s' (exec (.sample id) t) := by
  obtain ⟨hno, rfl⟩ | ⟨hid, hroom, rfl⟩ := exec_sample_next hs
  · rw [h.cfg, h.wlen_eq] at hno
    exact exec_sample_ignored hno ▸ h.after_same _
  · obtain ⟨hms, hmt⟩ := h.mv
    have hms' := hms.accept hid hroom
    have hwin : (s.mv.accept id).window = (t.mv.accept id).window := by
      rw [Mv.accept_window, Mv.accept_window, h.window]
    rw [h.cfg] at hid
    rw [h.cfg, h.wlen_eq] at hroom
    have hmt' := hmt.accept hid hroom
    have hres : acceptResult s.cfg s.mv id = acceptResult t.cfg t.mv id := by
      rw [acceptResult, acceptResult, vote_eq_of_window_eq h.legal hms' (h.cfg ▸ hmt') hwin, h.wlen_eq, h.cfg]
    rw [exec_sample_accepted hid hroom, ← hres]
    exact h.after _ h.fd h.view ⟨hms', hmt'⟩ hwin

theorem SameLive.exec_mv (h : SameLive s t) {i : Instr} {s' : State} (hi : unitOf i = .mv)
    (hs : exec i s = .next s') : SameOutcome s t s' (exec i t) := by
  obtain ⟨rfl, rfl⟩ | ⟨rfl, rfl⟩ | ⟨rfl, rfl⟩ | ⟨id, -, -, rfl, -⟩ := exec_mv_next hi hs
  · exact h.unchanged
  · have hvote : vote s.cfg s.mv = vote t.cfg t.mv := by
      rw [← h.cfg]; exact vote_eq_of_window_eq h.legal h.mv.1 (h.cfg ▸ h.mv.2) h.window
    rw [hvote]
    exact h.after_same (.evaluate (vote t.cfg t.mv))
  · exact h.after .clear h.fd h.view ⟨h.mv.1.emptied, h.mv.2.emptied⟩ rfl
  · exact h.exec_sample hs

/-! ### Every instruction, and runs -/

/-- Every instruction that completes in one of two states that agree on everything live is matched in the other. -/
theorem SameLive.exec_same (h : SameLive s t) {i : Instr} {s' : State} (hs : exec i s = .next s') :
    SameOutcome s t s' (exec i t) := by
  cases hu : unitOf i with
  | fd => exact h.exec_fd hu hs
  | mv => exact h.exec_mv hu hs
  | sx =>
    obtain ⟨cs, hcs⟩ := exec_sx_local hu hs
    obtain rfl := Host.Outcome.next.inj (hs.symm.trans (hcs s rfl))
    exact hcs t h.cfg.symm ▸ h.after_same _

/-- A list of instructions is matched, one by one. -/
theorem SameLive.execAll_same {is : List Instr} {s' : State} (h : SameLive s t) (hs : execAll s is = .next s') :
    SameOutcome s t s' (execAll t is) := by
  induction is generalizing s t with
  | nil => cases hs; exact h.unchanged
  | cons i is ih =>
    obtain ⟨u, hu, hrest⟩ := execAll_cons_next hs
    obtain ⟨v, es, hv, huv, hes, het⟩ := h.exec_same hu
    obtain ⟨t', es', ht', hlive, hes', het'⟩ := ih huv hrest
    refine ⟨t', es' ++ es, (execAll_cons hv is).trans ht', hlive, ?_, ?_⟩
    · rw [hes', hes, List.append_assoc]
    · rw [het', het, List.append_assoc]

end

/-- The hardware reset leaves live what is live after power-on: nothing (R42, R210). -/
theorem sameLive_hardwareReset_resetFor {s : State} (h : s.Inv) : SameLive s.hardwareReset (State.resetFor s.cfg) where
  cfg := rfl
  legal := h.legal
  fd := ⟨h.fd.toWaitStart, Fd.reset_inv h.legal⟩
  mv := ⟨h.mv.emptied, Mv.reset_inv h.legal⟩
  view := rfl
  window := rfl

/-- Settles O53: whatever follows the hardware reset is matched after power-on. -/
theorem nothingSurvivesHardwareReset : Obligations.NothingSurvivesHardwareReset := by
  refine ⟨fun _ _ _ _ h hs => h.exec_same hs, fun _ h => sameLive_hardwareReset_resetFor h, fun s t is h ht => ?_⟩
  obtain ⟨u, es, hu, hlive, hes, heu⟩ := (sameLive_hardwareReset_resetFor h).execAll_same ht
  exact ⟨u, es, hu, hes, heu.trans (List.append_nil es), hlive.view, hlive.window⟩

end Sys2Proof.Machine
end
